-- ==== Sys2Proof/Word.lean ====
section
/-! DEFINITION. The widths of the hardware's values (00_scope.md R6, R7): every value is an unsigned 32-bit word, an
8-bit character, a 1-bit flag or a 42-bit command word. Bits are numbered from 0 at the least-significant end. -/

namespace Sys2Proof

/-- A packed code, and the content of `cursor`: `WORD_WIDTH` = 32 bits, unsigned (R6, R21). -/
abbrev Word := BitVec 32

/-- A character on `ch_i`: `CHAR_WIDTH` = 8 bits, read as unsigned (R6, R63, D9; log 9). -/
abbrev Char8 := BitVec 8

/-- The inputs of one command cycle as one word, `CW = {data[31:0], ch[7:0], cmd[1:0]}` (R62). -/
abbrev CommandWord := BitVec 42

/-- A byte, as the host's table numbering lays a command word out. -/
abbrev Byte := BitVec 8

end Sys2Proof
end

