-- ==== Sys2Proof/Config.lean ====
section
/-! DEFINITION. What is fixed when the hardware is built (00_scope.md R6), and the free values: what the spec leaves
open although the machine goes on (70_reset_and_hazards.md R134). The contents of the ROM are in Machine/Rom.lean. -/

namespace Sys2Proof

namespace Config

/-- `ROM_DEPTH`: the number of ROM entries (R6, R40). -/
abbrev romDepth : Nat := 37

/-- The index of the word-gap code (R41). -/
def wordGapIndex : Fin romDepth := 36

/-- FREE VALUE (R134, R122, I1; log 6): what `cursor` of the instance that draws from source `k` holds after its `n`-th
return of power. It has no body, so a claim holds whatever it is; no law relates two sources or two returns. -/
opaque powerUpCursor : (k n : Nat) → Word

/-- FREE VALUE (R134, R122, I1; log 6): what `out_q` of the instance that draws from source `k` holds after its `n`-th
return of power. -/
opaque powerUpOutQ : (k n : Nat) → Bool

end Config

/-- The type of `ROM_TABLE`: 37 words of 32 bits, read whole and by entry (R40, R51, R52). A fixed number of words, no
byte cells: no byte order exists (R50; log 4). -/
abbrev RomTable := Vector Word Config.romDepth

end Sys2Proof
end

