-- ==== Sys2Proof/Syntax.lean ====
section
/-! DEFINITION. The operations of the hardware (one constructor per row of opcode_table.json), what a host presents to
it, and the source lines of the assembly syntax (30_encoding.md). -/

namespace Sys2Proof

/-- The operations (R3, R61, R62). Don't-care fields of a command word are no part of an instruction (R62; log 8). -/
inductive Instr where
  /-- NOP, `cmd = 0b00` (R96). -/
  | nop
  /-- STEP, `cmd = 0b01` (R90). -/
  | step
  /-- LOAD, `cmd = 0b10`; the operand is `data_i` taken whole (R94, R65). -/
  | load (data : Word)
  /-- LOADC, `cmd = 0b11`; the operand is `ch_i` (R95). -/
  | loadc (ch : Char8)
  /-- CONVERT, the encoder's combinational query on `ch_i` (R80, R85). -/
  | convert (ch : Char8)
deriving DecidableEq, Repr

/-- An encoded operation in one of the two formats of R62. `ENC8` has no selecting bits, so the format is not in the
bits: it is the port the host uses. -/
inductive Presented where
  /-- Format CMD42: a 42-bit command word. -/
  | cmd42 (cw : CommandWord)
  /-- Format ENC8: the 8-bit `ch_i` of the encoder alone. -/
  | enc8 (ch : Char8)
deriving DecidableEq, Repr

/-- What the host does to one CORE, one at a time (R9, R60, R141). -/
inductive Transaction where
  /-- One rising edge of `clk` with these levels on `rst` and on `data_i`, `ch_i`, `cmd_i` (R60, R131). -/
  | edge (rst : Bool) (cw : CommandWord)
  /-- Between edges: `ch_i` is driven to `ch` and `code_o` may be read (R80, R85, R139). -/
  | query (ch : Char8)
  /-- Power is removed and returns (R122, R134). -/
  | powerCycle
deriving DecidableEq, Repr

/-- A line of a program, its operands as numbers that have not been checked yet (R68, R69). -/
inductive SourceLine where
  /-- `NOP` -/
  | nop
  /-- `STEP` -/
  | step
  /-- `LOAD <imm32>` -/
  | load (imm : Nat)
  /-- `LOADC <char>` -/
  | loadc (ch : Nat)
  /-- `CONVERT <char>`, the query (R68). -/
  | convert (ch : Nat)
  /-- The pseudo-instruction `CLEAR` (R69). -/
  | clear
  /-- The pseudo-instruction `SEND <char>` (R69). -/
  | send (ch : Nat)
  /-- The pseudo-instruction `GAP` (R69). -/
  | gap
  /-- `RESET`, the `rst` pin for one edge: no command word (95_test_vectors.md section 3). -/
  | reset
deriving DecidableEq, Repr

end Sys2Proof
end

