-- ==== Sys2Proof/WellFormed.lean ====
section
/-! DEFINITION. The checks on syntax and on build-time data: packed codes (20_memory.md R45), ROM tables (R45, R47, R48),
source lines (30_encoding.md R68) and instructions (R66: there is nothing to refuse). -/

namespace Sys2Proof

/-- A well-formed packed code is at least 2: a sentinel with at least one data bit below it (R45). -/
def codeWellFormed (v : Word) : Bool := decide (2#32 ≤ v)

/-- What every instantiation of `ROM_TABLE` must satisfy (R6): every entry is well formed (R45), entry 36 emits three off
ticks (R47), and the entries pinned by the source hold their values (R48). -/
def romAdmissible (rom : RomTable) : Bool :=
  rom.toList.all codeWellFormed
    && rom.get 14 == 0x00000003#32   -- 'E'
    && rom.get 29 == 0x0000000F#32   -- 'T'
    && rom.get 28 == 0x00000035#32   -- 'S'
    && rom.get 17 == 0x000000D5#32   -- 'H'
    && rom.get 18 == 0x0000000D#32   -- 'I'
    && rom.get 5 == 0x00000355#32    -- '5'
    && rom.get 36 == 0x00000008#32   -- the word gap

/-- A source line's operand lies in its range: an immediate in 0 to 2^32 - 1, a character in 8 bits (R68). -/
def SourceLine.wellFormed : SourceLine → Bool
  | .load imm => decide (imm < 2 ^ 32)
  | .loadc ch | .convert ch | .send ch => decide (ch < 2 ^ 8)
  | .nop | .step | .clear | .gap | .reset => true

/-- Every instruction is well formed: its operands are bounded by their types and no value of them is reserved or illegal
(R65, R66). -/
def Instr.wellFormed : Instr → Bool
  | .nop | .step | .load _ | .loadc _ | .convert _ => true

end Sys2Proof
end

