-- ==== Sys2Proof/Decode.lean ====
section
/-! DEFINITION. Decoding and encoding (30_encoding.md R60-R62, R66-R68). A command word always decodes (R66). Bytes that
are neither format are refused by name. -/

namespace Sys2Proof

/-- `cmd = CW[1:0]` (R62). -/
def cmdField (cw : CommandWord) : BitVec 2 := cw.extractLsb' 0 2

/-- `ch = CW[9:2]` (R62). -/
def chField (cw : CommandWord) : Char8 := cw.extractLsb' 2 8

/-- `data = CW[41:10]` (R62). -/
def dataField (cw : CommandWord) : Word := cw.extractLsb' 10 32

/-- `CW = {data, ch, cmd}` (R62). -/
def commandWord (data : Word) (ch : Char8) (cmd : BitVec 2) : CommandWord := data ++ ch ++ cmd

/-- The opcode map of R61 over CW bits 1:0. All four codes are defined; unused fields are ignored (R62, R66). -/
def decodeCommand (cw : CommandWord) : Instr :=
  if cmdField cw = 0b00#2 then .nop
  else if cmdField cw = 0b01#2 then .step
  else if cmdField cw = 0b10#2 then .load (dataField cw)
  else .loadc (chField cw)

/-- Decoding is total and never refuses (R66). `ENC8` is CONVERT for every value (R62). -/
def decode : Presented → Instr
  | .cmd42 cw => decodeCommand cw
  | .enc8 ch => .convert ch

/-- Why bytes are no encoded operation. -/
inductive DecodeRefusal where
  /-- The number of bytes is neither one (ENC8) nor six (CMD42). Safe: no operation has such an encoding (R67). -/
  | lengthOfNoFormat
  /-- Six bytes whose bits 47:42 are not all 0. Safe: a command word has no such bits (R62; log 7). -/
  | bitsAboveCommandWord
deriving DecidableEq, Repr

/-- The bytes of an encoded operation, bit 0 in the first byte's lowest bit (log 7: the hardware stores no command). -/
def bytesOf : Presented → List Byte
  | .cmd42 cw => (List.range 6).map fun k => (cw.setWidth 48).extractLsb' (8 * k) 8
  | .enc8 ch => [ch]

/-- The format that bytes are in: one byte is ENC8, six are CMD42. -/
def presentedOf : List Byte → Except DecodeRefusal Presented
  | [ch] => .ok (.enc8 ch)
  | [b0, b1, b2, b3, b4, b5] =>
    let w : BitVec 48 := b5 ++ b4 ++ b3 ++ b2 ++ b1 ++ b0
    if w.extractLsb' 42 6 = 0#6 then .ok (.cmd42 (w.setWidth 42)) else .error .bitsAboveCommandWord
  | _ => .error .lengthOfNoFormat

/-- The decoder on any bytes. -/
def decodeBytes (bytes : List Byte) : Except DecodeRefusal Instr := (presentedOf bytes).map decode

/-- The canonical encoding: fields an operation does not use are 0 (R62, R68). -/
def encode : Instr → Presented
  | .nop => .cmd42 (commandWord 0 0 0b00#2)
  | .step => .cmd42 (commandWord 0 0 0b01#2)
  | .load data => .cmd42 (commandWord data 0 0b10#2)
  | .loadc ch => .cmd42 (commandWord 0 ch 0b11#2)
  | .convert ch => .enc8 ch

/-- The canonical encoding as bytes. -/
def encodeBytes (i : Instr) : List Byte := bytesOf (encode i)

/-- The bytes meant by a word that is numbered as opcode_table.json numbers its rows. The table fixes only bits 1:0 of a
CMD42 row, and `ENC8` has no selecting bits (R62), so a word of at most 8 bits may belong to either format; the model reads
one with no bit set above bit 1 as a command word, with zeros above, and any other as the encoder's `ch` (log 7). -/
def tableBytes (nbits w : Nat) : List Byte :=
  if nbits ≤ 8 ∧ 4 ≤ w then [BitVec.ofNat 8 w]
  else (List.range 6).map fun k => BitVec.ofNat 8 (w / 2 ^ (8 * k))

/-- The instruction the decoder reads from a word numbered as opcode_table.json numbers it. -/
def decodeTableWord (nbits w : Nat) : Option Instr := (decodeBytes (tableBytes nbits w)).toOption

end Sys2Proof
end

