-- ==== Sys2Proof/Machine/Rom.lean ====
section
/-! DEFINITION. The ROM of `morse_encoder_rom` (20_memory.md R40-R49): the reference contents, the one read, and the
packed-code format that letters and digits are built by. -/

namespace Sys2Proof.Machine

/-- `RomRead(idx)` for 0 <= idx <= 36: the whole entry, with no side effect (R8, R42, R51). -/
def romRead (rom : RomTable) (idx : Fin Config.romDepth) : Word := rom.get idx

/-- The reference table of R49, the default of the parameter `ROM_TABLE`. Entries 5, 14, 17, 18, 28, 29 and 36 are pinned
by the source (R47, R48); the other 30 are PRESUMED: the spec takes them from general knowledge (D10, G3; log 2). -/
def referenceRom : RomTable := #v[
  0x000F7777#32,  -- 0: '0'  -----
  0x0003DDDD#32,  -- 1: '1'  .----
  0x0000F775#32,  -- 2: '2'  ..---
  0x00003DD5#32,  -- 3: '3'  ...--
  0x00000F55#32,  -- 4: '4'  ....-
  0x00000355#32,  -- 5: '5'  .....
  0x00000D57#32,  -- 6: '6'  -....
  0x00003577#32,  -- 7: '7'  --...
  0x0000D777#32,  -- 8: '8'  ---..
  0x00037777#32,  -- 9: '9'  ----.
  0x0000003D#32,  -- 10: 'A'  .-
  0x00000357#32,  -- 11: 'B'  -...
  0x00000DD7#32,  -- 12: 'C'  -.-.
  0x000000D7#32,  -- 13: 'D'  -..
  0x00000003#32,  -- 14: 'E'  .
  0x00000375#32,  -- 15: 'F'  ..-.
  0x00000377#32,  -- 16: 'G'  --.
  0x000000D5#32,  -- 17: 'H'  ....
  0x0000000D#32,  -- 18: 'I'  ..
  0x00003DDD#32,  -- 19: 'J'  .---
  0x000003D7#32,  -- 20: 'K'  -.-
  0x0000035D#32,  -- 21: 'L'  .-..
  0x000000F7#32,  -- 22: 'M'  --
  0x00000037#32,  -- 23: 'N'  -.
  0x00000F77#32,  -- 24: 'O'  ---
  0x00000DDD#32,  -- 25: 'P'  .--.
  0x00003D77#32,  -- 26: 'Q'  --.-
  0x000000DD#32,  -- 27: 'R'  .-.
  0x00000035#32,  -- 28: 'S'  ...
  0x0000000F#32,  -- 29: 'T'  -
  0x000000F5#32,  -- 30: 'U'  ..-
  0x000003D5#32,  -- 31: 'V'  ...-
  0x000003DD#32,  -- 32: 'W'  .--
  0x00000F57#32,  -- 33: 'X'  -..-
  0x00003DD7#32,  -- 34: 'Y'  -.--
  0x00000D77#32,  -- 35: 'Z'  --..
  0x00000008#32   -- 36: word gap
]

/-- A Morse mark (00_scope.md, glossary). -/
inductive Mark where
  | dot
  | dash
deriving DecidableEq, Repr

/-- The ticks of one mark: a dot is one on tick, a dash three (R46). -/
def Mark.ticks : Mark → List Bool
  | .dot => [true]
  | .dash => [true, true, true]

/-- The data bits of a letter or digit: its marks in order, one off tick between two marks, none after the last (R46). -/
def morseBits : List Mark → List Bool
  | [] => []
  | [m] => m.ticks
  | m :: ms => m.ticks ++ false :: morseBits ms

/-- The sum of `d_i * 2^i` over the data bits plus `2^k` for the sentinel above the `k` of them (R46), lowest bit first. -/
def packNat : List Bool → Nat
  | [] => 1
  | b :: bs => b.toNat + 2 * packNat bs

/-- The packed code with these data bits, in emission order (R44-R46). -/
def packBits (bits : List Bool) : Word := BitVec.ofNat 32 (packNat bits)

/-- The Morse codes of '0' to '9' (R49; the source gives only that of '5', the others are PRESUMED: G3; log 2). -/
def digitMorse : List (List Mark) := [
  [.dash, .dash, .dash, .dash, .dash],
  [.dot, .dash, .dash, .dash, .dash],
  [.dot, .dot, .dash, .dash, .dash],
  [.dot, .dot, .dot, .dash, .dash],
  [.dot, .dot, .dot, .dot, .dash],
  [.dot, .dot, .dot, .dot, .dot],
  [.dash, .dot, .dot, .dot, .dot],
  [.dash, .dash, .dot, .dot, .dot],
  [.dash, .dash, .dash, .dot, .dot],
  [.dash, .dash, .dash, .dash, .dot]]

/-- The Morse codes of 'A' to 'M' (R49; of these the source gives E, H and I, the others are PRESUMED: G3; log 2). -/
def letterMorseAM : List (List Mark) := [
  [.dot, .dash],
  [.dash, .dot, .dot, .dot],
  [.dash, .dot, .dash, .dot],
  [.dash, .dot, .dot],
  [.dot],
  [.dot, .dot, .dash, .dot],
  [.dash, .dash, .dot],
  [.dot, .dot, .dot, .dot],
  [.dot, .dot],
  [.dot, .dash, .dash, .dash],
  [.dash, .dot, .dash],
  [.dot, .dash, .dot, .dot],
  [.dash, .dash]]

/-- The Morse codes of 'N' to 'Z' (R49; of these the source gives S and T, the others are PRESUMED: G3; log 2). -/
def letterMorseNZ : List (List Mark) := [
  [.dash, .dot],
  [.dash, .dash, .dash],
  [.dot, .dash, .dash, .dot],
  [.dash, .dash, .dot, .dash],
  [.dot, .dash, .dot],
  [.dot, .dot, .dot],
  [.dash],
  [.dot, .dot, .dash],
  [.dot, .dot, .dot, .dash],
  [.dot, .dash, .dash],
  [.dash, .dot, .dot, .dash],
  [.dash, .dot, .dash, .dash],
  [.dash, .dash, .dot, .dot]]

/-- The Morse codes of entries 0 to 35, in ROM order (R41, R49). -/
def morseTable : List (List Mark) := digitMorse ++ letterMorseAM ++ letterMorseNZ

end Sys2Proof.Machine
end

