-- ==== Sys2Proof/Machine/State.lean ====
section
/-! DEFINITION. The state of one CORE (10_state.md R20), the reasons a step could stop, and the state after reset
(R30, 70_reset_and_hazards.md R130). -/

namespace Sys2Proof.Machine

/-- The faults of the machine: none. "The hardware raises no exception, trap, fault or error signal of any kind" (R110),
so no constructor exists and nothing raises one. Safe: every operation has a next state. -/
inductive Fault where
deriving DecidableEq, Repr

/-- The refusals of a step. -/
inductive Refusal where
  /-- Raised only by an arm of `exec` whose instruction has no meaning yet; every arm has one, so nothing raises it
  (R110: refusal outcomes are empty). Safe. -/
  | notModelled (mnemonic : String)
deriving DecidableEq, Repr

/-- One CORE. `cursor` and `outQ` are its only registers (R20); `rom` is its build-time constant (R20, log 1); `chI`,
`pending`, `draws` and `drawSource` are the model's own: an input level, what the host presents, and what picks the free
values. -/
structure State where
  /-- The playback cursor (R21). -/
  cursor : Word
  /-- The output register: the flag of the most recent STEP since reset (R24). -/
  outQ : Bool
  /-- `ROM_TABLE`: nothing writes it (R43). Carried here so that a statement holds for every table (log 1). -/
  rom : RomTable
  /-- The model's own: the level last driven on the input port `ch_i` (R60; log 5). -/
  chI : Char8
  /-- The model's own: what the host presents next, first element first (R26, R141; log 3). -/
  pending : List Transaction
  /-- The model's own: how often power has returned; picks the free power-up values (R134; log 6). -/
  draws : Nat
  /-- The model's own: which source the free power-up values are drawn from. Instances side by side draw from sources of
  their own, so nothing relates what they come up with (R120, R134; log 6, 13). No operation reads it but the return of
  power, and none writes it. -/
  drawSource : Nat
deriving DecidableEq, Repr

/-- The machine right after reset (R30, R130): idle, output off, the default ROM (R49; log 2). The values of `chI`,
`pending`, `draws` and `drawSource` are DESIGN CHOICES (log 3, 5, 6). -/
def State.reset : State :=
  { cursor := 0x00000000#32, outQ := false, rom := referenceRom, chI := 0x00#8, pending := [], draws := 0,
    drawSource := 0 }

end Sys2Proof.Machine
end

