-- ==== Sys2Proof/Machine/Flags.lean ====
section
/-! DEFINITION. The two status values of the hardware: the flag a STEP returns and idle (10_state.md R27). There is no
other flag. -/

namespace Sys2Proof.Machine

/-- The flag STEP returns: bit 0 of the cursor before the update, 1 = output on (R90). -/
def emittedFlag (cursor : Word) : Bool := cursor.getLsbD 0

/-- Idle: the cursor is 0 (R23). -/
def isIdle (cursor : Word) : Bool := cursor == 0x00000000#32

end Sys2Proof.Machine
end

