-- ==== Sys2Proof/Machine/Operands.lean ====
section
/-! DEFINITION. The operand decode of the encoder: the four-way classifier (30_encoding.md R63, R64) and CONVERT as a
function of the character and the ROM (40_encoder.md R80, R81, R85). -/

namespace Sys2Proof.Machine

/-- `idx(ch)` of R63 as the 6-bit number it is there: four tests in the source's priority order, all unsigned. -/
def romIndex6 (ch : Char8) : BitVec 6 :=
  if 0x30#8 ≤ ch ∧ ch ≤ 0x39#8 then (ch - 0x30#8).setWidth 6
  else if 0x41#8 ≤ ch ∧ ch ≤ 0x5A#8 then (ch - 0x41#8).setWidth 6 + 10#6
  else if 0x61#8 ≤ ch ∧ ch ≤ 0x7A#8 then (ch - 0x61#8).setWidth 6 + 10#6
  else 36#6

/-- The classifier produces no index above 36 (R51). -/
theorem romIndex6_lt (ch : Char8) : (romIndex6 ch).toNat < Config.romDepth := by
  revert ch; decide

/-- `idx(ch)` as an index into the 37 entries (R51, R63). -/
def romIndex (ch : Char8) : Fin Config.romDepth := ⟨(romIndex6 ch).toNat, romIndex6_lt ch⟩

/-- `CONVERT(ch) = RomRead(idx(ch))` (R80), a pure function of the character and the table (R81, R85). -/
def convert (rom : RomTable) (ch : Char8) : Word := romRead rom (romIndex ch)

end Sys2Proof.Machine
end

