-- ==== Sys2Proof/Machine/Ports.lean ====
section
/-! DEFINITION. The outputs of the CORE as functions of its state (30_encoding.md R60, 10_state.md R23, R24). They show
the current register content at every moment. -/

namespace Sys2Proof.Machine

/-- `code_o = CONVERT(ch_i)` at every moment, whatever the command (R60, R81). -/
def State.codeO (s : State) : Word := convert s.rom s.chI

/-- `code_i`, the stepper's input, is wired to `code_o` inside the CORE (R60). -/
def State.codeI (s : State) : Word := s.codeO

/-- `flag_o`, the on/off drive, is `out_q` (R24, R60). -/
def State.flagO (s : State) : Bool := s.outQ

/-- `cursor_o` is `cursor` (R23). -/
def State.cursorO (s : State) : Word := s.cursor

/-- `idle_o` is `cursor == 0` (R23). -/
def State.idleO (s : State) : Bool := isIdle s.cursor

end Sys2Proof.Machine
end

