-- ==== Sys2Proof/Machine/Ops.lean ====
section
/-! DEFINITION. The named operations over the registers: the writes, the cursor's advance, the reset edge and the loss
of power. Taking an exception and returning from one are not among them: the hardware has neither
(60_exceptions.md R110, R114, R115). No operation writes the ROM (20_memory.md R43). -/

namespace Sys2Proof.Machine

/-- `cursor <- v`, all 32 bits at once (R8, R52). -/
def State.writeCursor (s : State) (v : Word) : State := { s with cursor := v }

/-- `out_q <- b` (R8, R24). -/
def State.writeOutQ (s : State) (b : Bool) : State := { s with outQ := b }

/-- The host drives the input port `ch_i`; no register is written (R60, R139). -/
def State.driveCh (s : State) (ch : Char8) : State := { s with chI := ch }

/-- What the host presents from now on (log 3). -/
def State.withPending (s : State) (es : List Transaction) : State := { s with pending := es }

/-- The cursor after a STEP: 0 when it was below 4 (unsigned), else the logical right shift by one (R90, R93). -/
def advance (cursor : Word) : Word := if cursor < 4#32 then 0x00000000#32 else cursor >>> 1

/-- The reset edge: `cursor <- 0`, `out_q <- 0`, and the ROM is left alone (R130, R132). -/
def resetEdge (s : State) : State := (s.writeCursor 0x00000000#32).writeOutQ false

/-- Power is lost and returns: both registers hold free values until something writes them; the ROM is fixed at build time
(R122, R134). Which free values is the model's choice: the next of the instance's own source (log 6). -/
def powerCycle (s : State) : State :=
  { (s.writeCursor (Config.powerUpCursor s.drawSource s.draws)).writeOutQ (Config.powerUpOutQ s.drawSource s.draws)
    with draws := s.draws + 1 }

end Sys2Proof.Machine
end

