-- ==== Sys2Proof/Machine/Encoder.lean ====
section
/-! DEFINITION. The encoder family (40_encoder.md): CONVERT. -/

namespace Sys2Proof.Machine

/-- CONVERT: with `ch` on `ch_i`, the output `code_o` is `RomRead(idx(ch))` (R80). It writes no register and needs no
clock (R81, R85): only the level of the input port is the host's new one (log 5). -/
def execConvert (ch : Char8) (s : State) : Host.Outcome State Fault Refusal := .next (s.driveCh ch)

end Sys2Proof.Machine
end

