-- ==== Sys2Proof/Machine/Stepper.lean ====
section
/-! DEFINITION. The stepper family (41_stepper.md): NOP, STEP, LOAD, LOADC. Each is total and answers a next state
(R110). -/

namespace Sys2Proof.Machine

/-- NOP: `cursor` and `out_q` keep their values (R96). -/
def execNop (s : State) : Host.Outcome State Fault Refusal := .next s

/-- STEP: the flag is read before the cursor advances, and is held in `out_q` (R90). -/
def execStep (s : State) : Host.Outcome State Fault Refusal :=
  .next ((s.writeCursor (advance s.cursor)).writeOutQ (emittedFlag s.cursor))

/-- LOAD: the operand is taken whole and nothing is checked (R65, R94); a character being played is overwritten (R136). -/
def execLoad (data : Word) (s : State) : Host.Outcome State Fault Refusal := .next (s.writeCursor data)

/-- LOADC: with `ch` on `ch_i`, the cursor takes `code_i`, which is `CONVERT(ch)` (R60, R95). -/
def execLoadc (ch : Char8) (s : State) : Host.Outcome State Fault Refusal :=
  .next ((s.driveCh ch).writeCursor (s.driveCh ch).codeI)

end Sys2Proof.Machine
end

