-- ==== Sys2Proof/Machine/Dispatch.lean ====
section
/-! DEFINITION. One arm per instruction. -/

namespace Sys2Proof.Machine

def exec (i : Instr) (s : State) : Host.Outcome State Fault Refusal :=
  match i with
  | .nop => Sys2Proof.Machine.execNop s
  | .step => Sys2Proof.Machine.execStep s
  | .load data => Sys2Proof.Machine.execLoad data s
  | .loadc ch => Sys2Proof.Machine.execLoadc ch s
  | .convert ch => Sys2Proof.Machine.execConvert ch s

end Sys2Proof.Machine
end

