-- ==== Sys2Proof/Machine/Transact.lean ====
section
/-! DEFINITION. One transaction of the host with one CORE (00_scope.md R9, 30_encoding.md R60, 70_reset_and_hazards.md
R130, R131), and what the host presents when its list is empty. -/

namespace Sys2Proof.Machine

/-- What happens when the host presents one transaction. At an edge, `ch_i` carries the word's character field; with `rst`
high the command is ignored (R131); otherwise the one operation that `cmd_i` selects is performed (R60, R61). -/
def perform (e : Transaction) (s : State) : Host.Outcome State Fault Refusal :=
  match e with
  | .edge rst cw =>
    if rst then .next (resetEdge (s.driveCh (chField cw))) else exec (decode (.cmd42 cw)) (s.driveCh (chField cw))
  | .query ch => exec (decode (.enc8 ch)) s
  | .powerCycle => .next (powerCycle s)

/-- The transaction by which a host issues an encoded operation: a command word at an edge with `rst` low, or a query. -/
def transactionOf : Presented → Transaction
  | .cmd42 cw => .edge false cw
  | .enc8 ch => .query ch

/-- The transaction that issues an instruction by its canonical encoding (R62, R68). -/
def issue (i : Instr) : Transaction := transactionOf (encode i)

/-- A cycle in which the host presents nothing is an idle command cycle: NOP is 0, so an idle bus does nothing, and the
unit holds its registers (R61, R96, R122; log 3). -/
def performIdle (s : State) : Host.Outcome State Fault Refusal := exec .nop s

/-- The next transaction of the host, or an idle cycle. -/
def performNext (s : State) : Host.Outcome State Fault Refusal :=
  match s.pending with
  | [] => performIdle s
  | e :: rest => perform e (s.withPending rest)

/-- What the host will present once the instruction of a table word has been placed before everything else (log 3, 7). -/
def pendingWithWord (nbits w : Nat) (es : List Transaction) : List Transaction :=
  match presentedOf (tableBytes nbits w) with
  | .ok p => transactionOf p :: es
  | .error _ => es

end Sys2Proof.Machine
end

