-- ==== Sys2Proof/Machine/Step.lean ====
section
/-! DEFINITION. One step: one transaction, applied atomically (00_scope.md R9). There is no program counter and no fetch
(10_state.md R26): a step takes what the host presents. -/

namespace Sys2Proof.Machine

/-- One step of the machine (R9, R60, R141). -/
def step (s : State) : Host.Outcome State Fault Refusal := performNext s

/-- The state in which the host presents the instruction of this table word next, and everything it had pending after it
(log 3). -/
def State.withFetchWord (s : State) (nbits w : Nat) : State := s.withPending (pendingWithWord nbits w s.pending)

end Sys2Proof.Machine
end

