-- ==== Sys2Proof/Machine/Playback.lean ====
section
/-! DEFINITION. Runs and what is observed of them (70_reset_and_hazards.md R141), and the data bits of a packed code
(20_memory.md R44, R45). -/

namespace Sys2Proof.Machine

/-- The flags a transaction returns to the host: one for a STEP, none for anything else (R70, R90). -/
def returned (e : Transaction) (s : State) : List Bool :=
  match e with
  | .edge false cw =>
    match decodeCommand cw with
    | .step => [emittedFlag s.cursor]
    | .nop | .load _ | .loadc _ | .convert _ => []
  | .edge true _ | .query _ | .powerCycle => []

/-- A tick is one STEP command: an edge with `rst` low and `cmd_i = 0b01`, whatever the other fields (R62, R70). -/
def isTick : Transaction → Bool
  | .edge rst cw => !rst && cmdField cw == 0b01#2
  | .query _ | .powerCycle => false

/-- A transaction that changes no register and returns nothing: a NOP cycle or a query of the encoder (R70, R81, R96). -/
def isSilent : Transaction → Bool
  | .edge rst cw => !rst && cmdField cw == 0b00#2
  | .query _ => true
  | .powerCycle => false

/-- A transaction after which `out_q` is no STEP's flag: a reset edge, or the return of power (R24, R134). -/
def clearsOutput : Transaction → Bool
  | .edge rst _ => rst
  | .query _ => false
  | .powerCycle => true

/-- A run: a finite sequence of transactions applied to a start state. It is observed as the final state and the flags the
STEPs returned, in order (R141). -/
def observe : List Transaction → State → Host.Outcome (State × List Bool) Fault Refusal
  | [], s => .next (s, [])
  | e :: es, s =>
    match perform e s with
    | .next s' =>
      match observe es s' with
      | .next (t, flags) => .next (t, returned e s ++ flags)
      | .fault r => .fault r
      | .refused r => .refused r
    | .fault r => .fault r
    | .refused r => .refused r

/-- The number of STEPs from this cursor to idle: `msb(v)` for v at least 2, one for 1, none for 0 (R97). -/
def ticks (v : Word) : Nat :=
  if v = 0#32 then 0 else if v = 1#32 then 1 else v.toNat.log2

/-- The data bits `v[0], ..., v[k-1]` below the sentinel at `k = msb(v)`, in emission order (R44, R45). -/
def dataBits (v : Word) : List Bool := (List.range v.toNat.log2).map fun j => v.getLsbD j

end Sys2Proof.Machine
end

