-- ==== Sys2Proof/Machine/Instances.lean ====
section
/-! DEFINITION. Several CORE instances side by side (60_exceptions.md R120, 20_memory.md R55, R59): each has a `cursor` and
an `out_q` of its own and is commanded on its own, and one ROM serves them all. -/

namespace Sys2Proof.Machine

/-- What belongs to one instance alone: its registers (R120), and the model's own fields about its ports, its host and its
power (log 3, 5, 6). -/
structure Member where
  cursor : Word
  outQ : Bool
  chI : Char8
  pending : List Transaction
  draws : Nat
deriving DecidableEq, Repr

/-- `n` instances and the one table they share (R59). -/
structure System (n : Nat) where
  rom : RomTable
  members : Vector Member n
deriving DecidableEq, Repr

/-- What belongs to one instance alone, of a CORE. -/
def State.member (s : State) : Member :=
  { cursor := s.cursor, outQ := s.outQ, chI := s.chI, pending := s.pending, draws := s.draws }

/-- Instance `k` as a CORE: its own registers, the shared ROM, and a source of free values of its own (log 6, 13). -/
def System.core {n : Nat} (sys : System n) (k : Fin n) : State :=
  { cursor := (sys.members.get k).cursor, outQ := (sys.members.get k).outQ, rom := sys.rom,
    chI := (sys.members.get k).chI, pending := (sys.members.get k).pending, draws := (sys.members.get k).draws,
    drawSource := k.val }

/-- Every instance right after reset, with the default ROM (R30, R49; log 2). -/
def System.reset (n : Nat) : System n :=
  { rom := State.reset.rom, members := Vector.replicate n State.reset.member }

/-- Something that one CORE does, done by instance `k`; no other instance sees it, and the ROM has no write path (R43,
R120). -/
def onCore {n : Nat} (k : Fin n) (act : State → Host.Outcome State Fault Refusal) (sys : System n) :
    Host.Outcome (System n) Fault Refusal :=
  match act (sys.core k) with
  | .next s => .next { sys with members := sys.members.set k s.member }
  | .fault r => .fault r
  | .refused r => .refused r

/-- One transaction of instance `k` (R120). -/
def performAt {n : Nat} (k : Fin n) (e : Transaction) (sys : System n) : Host.Outcome (System n) Fault Refusal :=
  onCore k (perform e) sys

/-- One step of instance `k`: what its own host presents to it next (R120). -/
def stepAt {n : Nat} (k : Fin n) (sys : System n) : Host.Outcome (System n) Fault Refusal := onCore k step sys

/-- Transactions of several instances in one order among many (R55). -/
def performAll {n : Nat} : List (Fin n × Transaction) → System n → Host.Outcome (System n) Fault Refusal
  | [], sys => .next sys
  | (k, e) :: ops, sys =>
    match performAt k e sys with
    | .next sys' => performAll ops sys'
    | .fault r => .fault r
    | .refused r => .refused r

/-- The transactions of instance `k` among them, in order. -/
def transactionsAt {n : Nat} (k : Fin n) (ops : List (Fin n × Transaction)) : List Transaction :=
  (ops.filter fun op => op.1 = k).map Prod.snd

end Sys2Proof.Machine
end

