-- ==== Sys2Proof/Machine/Assembler.lean ====
section
/-! DEFINITION. The assembler of 30_encoding.md: the lines of R68 as text, and the expansions of the pseudo-instructions
of R69. Choices the rules leave open are in log 11. -/

namespace Sys2Proof.Machine

/-- The expansion of `SEND <char>`: the load and exactly as many STEPs as the code has ticks, so it depends on the ROM
(R69). -/
def sendCommands (rom : RomTable) (ch : Char8) : List Instr :=
  .loadc ch :: List.replicate (ticks (convert rom ch)) .step

/-- The transactions a source line stands for (R68, R69); `RESET` is an edge with `rst` high (95_test_vectors.md,
log 11). DESIGN CHOICE (log 11): a `CONVERT` line, which R68 calls no command and uses only in test vectors, is accepted in a
program and stands for a query between its commands. The operands of a line that is not well formed are cut to their
width: `assemble` refuses such a line first. -/
def expandLine (rom : RomTable) : SourceLine → List Transaction
  | .nop => [issue .nop]
  | .step => [issue .step]
  | .load imm => [issue (.load (BitVec.ofNat 32 imm))]
  | .loadc ch => [issue (.loadc (BitVec.ofNat 8 ch))]
  | .convert ch => [issue (.convert (BitVec.ofNat 8 ch))]
  | .clear => [issue (.load 0x00000000#32)]
  | .send ch => (sendCommands rom (BitVec.ofNat 8 ch)).map issue
  | .gap => (sendCommands rom 0x20#8).map issue
  | .reset => [.edge true 0]

/-- Why a line of text is no source line. -/
inductive AsmError where
  /-- The first word is no mnemonic of R68 or R69. -/
  | unknownMnemonic
  /-- An operand is missing or is not written as R68 says. -/
  | badOperand
  /-- Something other than a comment follows the command. -/
  | trailingText
  /-- An operand is out of its range (R68). -/
  | outOfRange
deriving DecidableEq, Repr

/-- Text after leading blanks. -/
def skipBlanks (cs : List Char) : List Char := cs.dropWhile fun c => c == ' ' || c == '\t' || c == '\r'

/-- Nothing but blanks and a comment is left; `;` starts a comment (R68). -/
def restIsComment (cs : List Char) : Bool :=
  match skipBlanks cs with
  | [] => true
  | c :: _ => c == ';'

/-- The value of a digit in a base of at most sixteen. -/
def digitValue (base : Nat) (c : Char) : Option Nat :=
  let n := c.toNat
  let v := if 48 ≤ n ∧ n ≤ 57 then n - 48
    else if 65 ≤ n ∧ n ≤ 70 then n - 55
    else if 97 ≤ n ∧ n ≤ 102 then n - 87 else base
  if v < base then some v else none

/-- The longest run of digits in a base, and the text after it; `none` where there is no digit. -/
def readDigits (base : Nat) : List Char → Nat → Bool → Option (Nat × List Char)
  | [], acc, seen => if seen then some (acc, []) else none
  | c :: cs, acc, seen =>
    match digitValue base c with
    | some d => readDigits base cs (acc * base + d) true
    | none => if seen then some (acc, c :: cs) else none

/-- A number in hex `0x…`, binary `0b…` or decimal (R68). DESIGN CHOICE (log 11): the prefix is in lower case, and any number
of digits may follow. -/
def readNumber : List Char → Option (Nat × List Char)
  | '0' :: 'x' :: cs => readDigits 16 cs 0 false
  | '0' :: 'b' :: cs => readDigits 2 cs 0 false
  | cs => readDigits 10 cs 0 false

/-- A character operand: a quoted character or an 8-bit number (R68). DESIGN CHOICE (log 11): the number in any notation of
`readNumber`, and any one character between the quotes, a quote or a semicolon among them. -/
def readChar : List Char → Option (Nat × List Char)
  | '\'' :: c :: '\'' :: cs => some (c.toNat, cs)
  | cs => readNumber cs

/-- A line with its operand, and the text after it. -/
def readOperand (mk : Nat → SourceLine) (operand : Option (Nat × List Char)) : Except AsmError (SourceLine × List Char) :=
  match operand with
  | some (n, cs) => .ok (mk n, cs)
  | none => .error .badOperand

/-- The command of a line; mnemonics are case-insensitive (R68), so the word comes in capitals. -/
def readCommand (word : List Char) (cs : List Char) : Except AsmError (SourceLine × List Char) :=
  if word = ['N', 'O', 'P'] then .ok (.nop, cs)
  else if word = ['S', 'T', 'E', 'P'] then .ok (.step, cs)
  else if word = ['L', 'O', 'A', 'D'] then readOperand .load (readNumber (skipBlanks cs))
  else if word = ['L', 'O', 'A', 'D', 'C'] then readOperand .loadc (readChar (skipBlanks cs))
  else if word = ['C', 'O', 'N', 'V', 'E', 'R', 'T'] then readOperand .convert (readChar (skipBlanks cs))
  else if word = ['C', 'L', 'E', 'A', 'R'] then .ok (.clear, cs)
  else if word = ['S', 'E', 'N', 'D'] then readOperand .send (readChar (skipBlanks cs))
  else if word = ['G', 'A', 'P'] then .ok (.gap, cs)
  else if word = ['R', 'E', 'S', 'E', 'T'] then .ok (.reset, cs)
  else .error .unknownMnemonic

/-- One line of text holds one command; `;` starts a comment (R68). DESIGN CHOICE (log 11): a blank line, and a line with
only a comment, is accepted and holds no command; no blank need stand between a mnemonic and its operand, since the
mnemonic is the longest run of letters. -/
def parseLine (text : List Char) : Except AsmError (Option SourceLine) :=
  if restIsComment text then .ok none
  else
    let cs := skipBlanks text
    match readCommand ((cs.takeWhile Char.isAlpha).map Char.toUpper) (cs.dropWhile Char.isAlpha) with
    | .error e => .error e
    | .ok (line, rest) =>
      if !restIsComment rest then .error .trailingText
      else if line.wellFormed then .ok (some line) else .error .outOfRange

/-- The transactions of a program, one line after the other (R68). DESIGN CHOICE (log 11): a line without a command
assembles to nothing. -/
def assemble (rom : RomTable) : List (List Char) → Except AsmError (List Transaction)
  | [] => .ok []
  | text :: more =>
    match parseLine text with
    | .error e => .error e
    | .ok line =>
      match assemble rom more with
      | .error e => .error e
      | .ok es => .ok ((line.elim [] (expandLine rom)) ++ es)

end Sys2Proof.Machine
end

