-- ==== Sys2Proof/Machine/HostLoop.lean ====
section
/-! DEFINITION. The host's side of the contract of 70_reset_and_hazards.md R135, row by row, so that a claim about a host
has something to be held to. The host is outside the hardware (00_scope.md R5); nothing here constrains it. -/

namespace Sys2Proof.Machine

/-- What a host does with the hardware: the rows H1 to H8 of the table of R135. -/
inductive Interaction where
  /-- H1, first way: `rst` for one edge. -/
  | reset
  /-- H1, second way: `CLEAR`. -/
  | clear
  /-- H2: `LOADC ch`, or, with `raw`, `LOAD CONVERT(ch)`. -/
  | character (ch : Char8) (raw : Bool)
  /-- H3: `STEP`, one tick of the character being played. -/
  | tick
  /-- H4: the host tests `idle_o`, reads this value, and sends nothing. -/
  | testIdle (reading : Bool)
  /-- H5: `LOADC ' '` between two characters; its 3 STEPs are ticks like any other (H3, H4), see `playGap`. -/
  | gap
  /-- H6: `CLEAR`, which abandons the character being played. -/
  | abandonByClear
  /-- H6: `LOAD` of any word, which abandons the character being played. -/
  | abandonByLoad (data : Word)
  /-- H6: `LOADC` of any character, which abandons the character being played. -/
  | abandonByLoadc (ch : Char8)
  /-- H7: `NOP`. -/
  | idleCycle
  /-- H8: `STEP` while idle, by a host that expects no output from it (R137). -/
  | idleStep
deriving DecidableEq, Repr

/-- The reading rule of R135: a duty is what the host must do for the emitted signal to be the source's Morse output, a
liberty is what the hardware accepts at any time. -/
inductive ContractKind where
  | duty
  | liberty
deriving DecidableEq, Repr

/-- The column "kind" of the table (R135). -/
def Interaction.kind : Interaction → ContractKind
  | .reset | .clear | .character _ _ | .tick | .testIdle _ | .gap => .duty
  | .abandonByClear | .abandonByLoad _ | .abandonByLoadc _ | .idleCycle | .idleStep => .liberty

/-- The column "host sends" of the table (R135), by canonical encodings (R68). -/
def Interaction.sends (rom : RomTable) : Interaction → List Transaction
  | .reset => [.edge true 0]
  | .clear | .abandonByClear => [issue (.load 0x00000000#32)]
  | .character ch raw => [issue (if raw then .load (convert rom ch) else .loadc ch)]
  | .tick | .idleStep => [issue .step]
  | .testIdle _ => []
  | .gap => [issue (.loadc 0x20#8)]
  | .abandonByLoad data => [issue (.load data)]
  | .abandonByLoadc ch => [issue (.loadc ch)]
  | .idleCycle => [issue .nop]

/-- How far a host has met the duties that reach from one interaction to a later one. -/
structure Standing where
  /-- H1: it has sent `rst` or `CLEAR` (R134). -/
  started : Bool
  /-- H4: it has sent a tick and not yet tested `idle_o` for it. -/
  owesTest : Bool
deriving DecidableEq, Repr

/-- A host that has done nothing yet. -/
def Standing.first : Standing := { started := false, owesTest := false }

/-- A host that has started and owes no test. -/
def Standing.clean : Standing := { started := true, owesTest := false }

/-- Where an interaction leaves the host. A tick owes the test of H4 until the host makes it; giving the character up, by a
command of H6 or by starting over, lifts it, since no end of that character is left to find (log 12). A `NOP` changes
nothing, so any number may stand between a tick and its test (H7). -/
def Interaction.leaves (h : Standing) : Interaction → Standing
  | .reset | .clear | .abandonByClear => .clean
  | .tick => { h with owesTest := true }
  | .testIdle _ | .abandonByLoad _ | .abandonByLoadc _ => { h with owesTest := false }
  | .character _ _ | .gap | .idleCycle | .idleStep => h

/-- The conditions the table sets on an interaction: H1 before first use, the test of H4 made before the host goes on, and
the level of `idle_o` its row names. Starting (H1) and `NOP` (H7) have none, and the commands of H6 may leave a test
unmade. That no output is expected at an H8 STEP is the host's own knowledge, which it declares by calling the STEP
`idleStep` (log 12). The cadence of H3 and what the output device holds have no place in a model without time (R138,
log 10). -/
def Interaction.allowed (h : Standing) (s : State) : Interaction → Bool
  | .reset | .clear | .idleCycle => true
  | .character _ _ | .gap | .idleStep => h.started && !h.owesTest && s.idleO
  | .tick => h.started && !h.owesTest && !s.idleO
  | .abandonByClear => !s.idleO
  | .abandonByLoad _ | .abandonByLoadc _ => h.started && !s.idleO
  | .testIdle reading => s.idleO == reading

/-- What a host sends in doing these, one after the other. -/
def transactionsOf (rom : RomTable) (doing : List Interaction) : List Transaction := doing.flatMap (·.sends rom)

/-- `n` ticks of a character, `idle_o` tested after each and read as 1 after the last (H3, H4). -/
def testedTicks : Nat → List Interaction
  | 0 => []
  | n + 1 => .tick :: .testIdle (n == 0) :: testedTicks n

/-- One character, played whole (H2, H3, H4). -/
def playCharacter (rom : RomTable) (ch : Char8) : List Interaction :=
  .character ch false :: testedTicks (ticks (convert rom ch))

/-- The gap between two characters: the word-gap code and its 3 ticks, tested like any (H3, H4, H5). -/
def playGap : List Interaction := .gap :: testedTicks 3

/-- A message: its characters, and the gap between two of them (H2 to H5; log 12). -/
def playMessage (rom : RomTable) : List Char8 → List Interaction
  | [] => []
  | [ch] => playCharacter rom ch
  | ch :: more => playCharacter rom ch ++ playGap ++ playMessage rom more

/-- The flags a message emits: its characters' data bits, and three off ticks between two of them (R44, R47, R135). -/
def messageBits (rom : RomTable) : List Char8 → List Bool
  | [] => []
  | [ch] => dataBits (convert rom ch)
  | ch :: more => dataBits (convert rom ch) ++ [false, false, false] ++ messageBits rom more

/-- A session of the calling loop: the start (H1), then the message (log 12). -/
def session (rom : RomTable) (message : List Char8) : List Interaction := .reset :: playMessage rom message

end Sys2Proof.Machine
end

