-- ==== Sys2Proof/Safety.lean ====
section
/-! DEFINITION. What counts as a safe run, in the terms statements use: the machine's promises (it always answers a next
state, R110) and the host's contract (70_reset_and_hazards.md R135-R137). -/

namespace Sys2Proof

open Sys2Proof.Machine

/-- The machine goes on: its step answers a next state (R110). -/
def stepAnswersNext (s : State) : Prop := ∃ t, step s = .next t

/-- The character lies in one of the three ranges '0'-'9', 'A'-'Z', 'a'-'z' (R63, R83). -/
def inThreeRanges (ch : Char8) : Prop :=
  (0x30 ≤ ch.toNat ∧ ch.toNat ≤ 0x39) ∨ (0x41 ≤ ch.toNat ∧ ch.toNat ≤ 0x5A) ∨ (0x61 ≤ ch.toNat ∧ ch.toNat ≤ 0x7A)

/-- The host keeps the contract of R135 all along, from where it stands (`Standing.first` before first use): each
interaction meets its row's conditions in the state it finds, and at the end no test of H4 is owed. A liberty breaks no
duty. The gap of H5 is never asked for: whether separated characters are wanted is the host's to say (DESIGN CHOICE,
log 12). The hardware enforces none of it. -/
def keepsContract : Standing → List Interaction → State → Prop
  | h, [], _ => h.owesTest = false
  | h, i :: more, s =>
    i.allowed h s = true ∧ ∀ t flags, observe (i.sends s.rom) s = .next (t, flags) → keepsContract (i.leaves h) more t

/-- A host that never loads the bare sentinel 1 and never removes power: with an admissible ROM, no STEP of its runs emits
a sentinel (R92, R84). -/
def loadsNoBareSentinel : Transaction → Bool
  | .edge rst cw => rst || decodeCommand cw != .load 1#32
  | .query _ => true
  | .powerCycle => false

/-- The cursor never holds a bare sentinel, and the host presents nothing that would put one there (R92). -/
def NoBareSentinel (s : State) : Prop :=
  romAdmissible s.rom = true ∧ s.cursor ≠ 1#32 ∧ ∀ e ∈ s.pending, loadsNoBareSentinel e = true

/-- A host that sets the cursor only by LOADC, CLEAR or reset (R84, R69). -/
def loadsOnlyCharacters : Transaction → Bool
  | .edge rst cw =>
    rst ||
      match decodeCommand cw with
      | .load data => data == 0#32
      | .nop | .step | .loadc _ | .convert _ => true
  | .query _ => true
  | .powerCycle => false

/-- The cursor is idle or what is left of a ROM entry of which fewer ticks than it has were emitted (R84, R97), and the
host sets it only by LOADC, CLEAR or reset. -/
def CursorIsRestOfEntry (s : State) : Prop :=
  romAdmissible s.rom = true ∧
  (s.cursor = 0#32 ∨
    ∃ idx : Fin Config.romDepth, ∃ j < (romRead s.rom idx).toNat.log2, s.cursor = romRead s.rom idx >>> j) ∧
  ∀ e ∈ s.pending, loadsOnlyCharacters e = true

end Sys2Proof
end

