-- ==== Sys2Proof/Certificates/Slice0/Obligations.lean ====
section
/-! DEFINITION. The statements for the provers, in the order of OBLIGATIONS.json. Where the spec marks a rule as its own
inference ("derived: from ..."), the statement's docstring says so. -/

open Sys2Proof Sys2Proof.Machine

/- ---- Reset and power (10_state.md, 70_reset_and_hazards.md) ---- -/

/-- R30: after reset the cursor is 0 (idle) and `out_q` is 0 (output off). That the ROM holds the default table is the
parameter's default (R49; log 1, 2). -/
def Obligations.ResetStateIsIdleAndOff : Prop :=
  State.reset.cursor = 0x00000000#32 ∧ State.reset.outQ = false ∧ State.reset.idleO = true ∧
  State.reset.flagO = false ∧ State.reset.rom = referenceRom

/-- R130, R131: at an edge with `rst` high both registers are cleared whatever the command; a command is performed only at
an edge with `rst` low, where the registers become what the decoded instruction makes of them. (That an edge is presented
in the list `pending` is log 3.) -/
def Obligations.ResetWinsOverEveryCommand : Prop :=
  ∀ (s : State) (cw : CommandWord) (rest : List Transaction),
    (s.pending = .edge true cw :: rest →
      ∃ t, step s = .next t ∧ t.cursor = 0x00000000#32 ∧ t.outQ = false ∧ t.idleO = true ∧ t.flagO = false) ∧
    (s.pending = .edge false cw :: rest →
      ∃ t u, step s = .next t ∧ exec (decodeCommand cw) s = .next u ∧ t.cursor = u.cursor ∧ t.outQ = u.outQ)

/-- R132: reset neither changes `ROM_TABLE` nor depends on it, and `code_o` shows `CONVERT(ch_i)` at the reset edge and
after it. -/
def Obligations.ResetLeavesRomAndCodeOutput : Prop :=
  ∀ (s : State) (cw : CommandWord), ∃ t, perform (.edge true cw) s = .next t ∧
    t.rom = s.rom ∧ t.codeO = convert s.rom (chField cw) ∧
    (∀ rom, ∃ u, perform (.edge true cw) { s with rom := rom } = .next u ∧
      u.cursor = t.cursor ∧ u.outQ = t.outQ ∧ u.rom = rom) ∧
    (∀ ch, ∃ u, perform (.query ch) t = .next u ∧ u.codeO = convert s.rom ch ∧ u.cursor = t.cursor ∧ u.outQ = t.outQ)

/-- R133, R91: a STEP on the state a reset edge leaves returns 0 and changes nothing. -/
def Obligations.StepAfterResetChangesNothing : Prop :=
  ∀ (s : State) (cw : CommandWord), ∃ t, perform (.edge true cw) s = .next t ∧
    exec .step t = .next t ∧ ∀ e, isTick e = true → returned e t = [false]

/-- R134, R122: after power returns both registers hold the free values, and the ROM its contents; a reset edge, LOAD or
LOADC makes the cursor known, and after LOAD or LOADC `out_q` stays free until the first STEP. The free values are
constants without a body, and which of them is drawn is the model's choice (log 6): the statement holds whatever they are. -/
def Obligations.PowerLossIsRecoveredByResetOrLoad : Prop :=
  ∀ s : State, ∃ t, perform .powerCycle s = .next t ∧
    t.cursor = Config.powerUpCursor s.drawSource s.draws ∧ t.outQ = Config.powerUpOutQ s.drawSource s.draws ∧ t.rom = s.rom ∧
    (∀ cw, ∃ u, perform (.edge true cw) t = .next u ∧ u.cursor = 0x00000000#32 ∧ u.outQ = false) ∧
    (∀ data, ∃ u, exec (.load data) t = .next u ∧ u.cursor = data ∧ u.outQ = Config.powerUpOutQ s.drawSource s.draws ∧
      ∃ v, exec .step u = .next v ∧ v.outQ = data.getLsbD 0) ∧
    (∀ ch, ∃ u, exec (.loadc ch) t = .next u ∧ u.cursor = convert s.rom ch ∧
      u.outQ = Config.powerUpOutQ s.drawSource s.draws ∧
      ∃ v, exec .step u = .next v ∧ v.outQ = (convert s.rom ch).getLsbD 0)

/- ---- The stepper (41_stepper.md) ---- -/

/-- R90: STEP in every state, its encoding, the flag it returns, and the corner cases R90 lists. -/
def Obligations.StepEmitsBitAndAdvances : Prop :=
  (∀ cw : CommandWord, cmdField cw = 0b01#2 → decodeCommand cw = .step) ∧
  (∀ s : State, ∃ t, exec .step s = .next t ∧
    t = { s with cursor := if s.cursor < 4#32 then 0x00000000#32 else s.cursor >>> 1, outQ := s.cursor.getLsbD 0 } ∧
    t.flagO = s.cursor.getLsbD 0 ∧ (t.idleO = true ↔ t.cursor = 0x00000000#32) ∧
    ∀ cw, cmdField cw = 0b01#2 → returned (.edge false cw) s = [s.cursor.getLsbD 0]) ∧
  (∀ row ∈ ([(0x00000000#32, false, 0x00000000#32), (0x00000001#32, true, 0x00000000#32),
      (0x00000002#32, false, 0x00000000#32), (0x00000003#32, true, 0x00000000#32),
      (0x00000004#32, false, 0x00000002#32), (0x00000005#32, true, 0x00000002#32),
      (0x80000000#32, false, 0x40000000#32), (0xFFFFFFFF#32, true, 0x7FFFFFFF#32),
      (0x00000035#32, true, 0x0000001A#32)] : List (Word × Bool × Word)),
    ∀ s : State, s.cursor = row.1 → exec .step s = .next { s with cursor := row.2.2, outQ := row.2.1 })

/-- R91 (the spec's own inference from R90): STEPs on an idle cursor, however many, return only 0, leave the cursor 0 and
hold the output off. -/
def Obligations.IdleStepsEmitNothing : Prop :=
  ∀ (es : List Transaction) (s : State), (∀ e ∈ es, isTick e = true) → s.cursor = 0x00000000#32 →
    ∃ t, observe es s = .next (t, List.replicate es.length false) ∧ t.cursor = 0x00000000#32 ∧
      (es ≠ [] → t.outQ = false)

/-- R92 (the spec's own inference from R90): STEP on 1 returns 1 and idles; no entry of an admissible ROM is 1; and of all
operations only LOAD of 1 brings the cursor to 1. -/
def Obligations.OnlyLoadOfOneMakesSentinelEmitted : Prop :=
  (∀ s : State, s.cursor = 1#32 → ∃ t, exec .step s = .next t ∧ t.cursor = 0x00000000#32 ∧ t.flagO = true) ∧
  (∀ rom, romAdmissible rom = true → ∀ idx, romRead rom idx ≠ 1#32) ∧
  (∀ (i : Instr) (s t : State), romAdmissible s.rom = true → s.cursor ≠ 1#32 → exec i s = .next t →
    t.cursor = 1#32 → i = .load 1#32)

/-- R93: where STEP shifts, bit 31 of the new cursor is 0 and bits 30..0 are the old bits 31..1. -/
def Obligations.StepShiftIsLogical : Prop :=
  ∀ s : State, 4#32 ≤ s.cursor → ∃ t, exec .step s = .next t ∧ t.cursor.getLsbD 31 = false ∧
    ∀ i < 31, t.cursor.getLsbD i = s.cursor.getLsbD (i + 1)

/-- R94: LOAD in every state with every operand, its encoding and its corner cases. -/
def Obligations.LoadWritesWholeWord : Prop :=
  (∀ cw : CommandWord, cmdField cw = 0b10#2 → decodeCommand cw = .load (dataField cw)) ∧
  (∀ (data : Word) (s : State), ∃ t, exec (.load data) s = .next t ∧
    t = { s with cursor := data } ∧ t.outQ = s.outQ ∧ (t.idleO = true ↔ data = 0x00000000#32) ∧
    ∃ u, exec .step t = .next u ∧ u.flagO = data.getLsbD 0 ∧ (data = 1#32 → u.flagO = true ∧ u.idleO = true))

/-- R95: LOADC in every state with every character, its encoding and its corner cases; `idle_o` becomes 0 because every
entry of an admissible ROM is at least 2. -/
def Obligations.LoadcLoadsPackedCode : Prop :=
  (∀ cw : CommandWord, cmdField cw = 0b11#2 → decodeCommand cw = .loadc (chField cw)) ∧
  (∀ (ch : Char8) (s : State), ∃ t, exec (.loadc ch) s = .next t ∧
    t = { s with cursor := convert s.rom ch, chI := ch } ∧ t.outQ = s.outQ ∧
    (romAdmissible s.rom = true → t.idleO = false) ∧ (¬ inThreeRanges ch → t.cursor = romRead s.rom 36) ∧
    (0x41 ≤ ch.toNat → ch.toNat ≤ 0x5A →
      ∃ u, exec (.loadc (ch + 0x20#8)) s = .next u ∧ u.cursor = t.cursor)) ∧
  (∀ s : State, romAdmissible s.rom = true → ∃ t, exec (.loadc 0x65#8) s = .next t ∧ t.cursor = 0x00000003#32)

/-- R96: NOP changes nothing, in every state and whatever the unused fields of its word are. -/
def Obligations.NopChangesNothing : Prop :=
  (∀ cw : CommandWord, cmdField cw = 0b00#2 → decodeCommand cw = .nop) ∧
  (∀ s : State, exec .nop s = .next s) ∧
  (∀ (s : State) (cw : CommandWord), cmdField cw = 0b00#2 → ∃ t, perform (.edge false cw) s = .next t ∧
    t.cursor = s.cursor ∧ t.outQ = s.outQ ∧ returned (.edge false cw) s = [])

/-- R97 (the spec's own inference from R90), the playback law: from a cursor `v` of at least 2, STEP number `j` finds
`v >> j` and returns `v[j]`, exactly `msb(v)` STEPs reach idle, and the sentinel is never returned; 1 returns its only bit;
0 returns only 0. -/
def Obligations.PlaybackLaw : Prop :=
  ∀ (es : List Transaction) (s : State), (∀ e ∈ es, isTick e = true) →
    (2#32 ≤ s.cursor → es.length = s.cursor.toNat.log2 →
      (∃ t, observe es s = .next (t, (List.range s.cursor.toNat.log2).map fun j => s.cursor.getLsbD j) ∧
        t.cursor = 0x00000000#32 ∧ t.outQ = s.cursor.getLsbD (s.cursor.toNat.log2 - 1)) ∧
      (∀ j < s.cursor.toNat.log2, ∃ t,
        observe (es.take j) s = .next (t, (List.range j).map fun i => s.cursor.getLsbD i) ∧
        t.cursor = s.cursor >>> j ∧ t.cursor ≠ 0x00000000#32)) ∧
    (s.cursor = 1#32 → es.length = 1 → ∃ t, observe es s = .next (t, [true]) ∧ t.cursor = 0x00000000#32) ∧
    (s.cursor = 0#32 → ∃ t, observe es s = .next (t, List.replicate es.length false) ∧ t.cursor = 0x00000000#32)

/-- R98 (the spec's own inference from R97): 31 STEPs reach idle from every cursor; 30 do not exactly when bit 31 is set. -/
def Obligations.ThirtyOneStepsReachIdle : Prop :=
  ∀ (es : List Transaction) (s : State), (∀ e ∈ es, isTick e = true) →
    (es.length = 31 → ∃ t flags, observe es s = .next (t, flags) ∧ t.cursor = 0x00000000#32) ∧
    (es.length = 30 → ∃ t flags, observe es s = .next (t, flags) ∧
      (t.cursor ≠ 0x00000000#32 ↔ 0x80000000#32 ≤ s.cursor)) ∧
    (dataBits s.cursor).length ≤ 31

/-- R99 (the spec's own inference from R90): STEP makes a cursor other than 0 strictly smaller, and leaves 0. -/
def Obligations.StepNeverIncreasesCursor : Prop :=
  ∀ s : State, ∃ t, exec .step s = .next t ∧
    (s.cursor ≠ 0x00000000#32 → t.cursor < s.cursor) ∧ (s.cursor = 0x00000000#32 → t.cursor = 0x00000000#32)

/-- R100 (the spec's own inference from R90): the cutoff differs from a plain right shift only at 2 and 3, where the shift
would leave the sentinel 1. -/
def Obligations.CutoffDiffersFromShiftOnlyAtTwoAndThree : Prop :=
  ∀ s : State, ∃ t, exec .step s = .next t ∧
    (t.cursor ≠ s.cursor >>> 1 ↔ s.cursor = 2#32 ∨ s.cursor = 3#32) ∧
    (t.cursor ≠ s.cursor >>> 1 → s.cursor >>> 1 = 1#32)

/- ---- The encoder (40_encoder.md, 30_encoding.md section 3) ---- -/

/-- R63: the four tests, in terms of the character as an unsigned number; no index exceeds 36. -/
def Obligations.ClassifierFollowsFourTests : Prop :=
  ∀ ch : Char8,
    (0x30 ≤ ch.toNat → ch.toNat ≤ 0x39 → (romIndex6 ch).toNat = ch.toNat - 0x30) ∧
    (0x41 ≤ ch.toNat → ch.toNat ≤ 0x5A → (romIndex6 ch).toNat = ch.toNat - 0x41 + 10) ∧
    (0x61 ≤ ch.toNat → ch.toNat ≤ 0x7A → (romIndex6 ch).toNat = ch.toNat - 0x61 + 10) ∧
    (¬ inThreeRanges ch → (romIndex6 ch).toNat = 36) ∧
    (romIndex6 ch).toNat ≤ 36 ∧ (romIndex ch).val = (romIndex6 ch).toNat

/-- R41, R53: every index of the ROM is reached: 0 to 9 by '0' to '9', 10 to 35 by 'A' to 'Z' and by 'a' to 'z', and 36 by
the space. -/
def Obligations.RomIndexMapCoversTheRom : Prop :=
  (∀ d < 10, (romIndex (BitVec.ofNat 8 (0x30 + d))).val = d) ∧
  (∀ p < 26, (romIndex (BitVec.ofNat 8 (0x41 + p))).val = 10 + p ∧
    (romIndex (BitVec.ofNat 8 (0x61 + p))).val = 10 + p) ∧
  romIndex 0x20#8 = 36 ∧ ∀ idx : Fin Config.romDepth, ∃ ch, romIndex ch = idx

/-- R80: CONVERT in every state with every character: `code_o` is the ROM entry of the character's index, and no register
changes. The corner cases R80 lists and its example. -/
def Obligations.ConvertShowsRomEntry : Prop :=
  (∀ ch : Char8, decode (.enc8 ch) = .convert ch) ∧
  (∀ (ch : Char8) (s : State), ∃ t, exec (.convert ch) s = .next t ∧
    t.codeO = romRead s.rom (romIndex ch) ∧ t.codeI = t.codeO ∧
    t = { s with chI := ch } ∧ t.cursor = s.cursor ∧ t.outQ = s.outQ ∧ t.rom = s.rom ∧
    (∀ idx, romRead t.rom idx = romRead s.rom idx)) ∧
  (∀ (s : State) (ch : Char8),
    ch ∈ ([0x2F#8, 0x3A#8, 0x40#8, 0x5B#8, 0x60#8, 0x7B#8, 0x00#8, 0x7F#8, 0x20#8] : List Char8) ∨ 0x80 ≤ ch.toNat →
      ∃ t, exec (.convert ch) s = .next t ∧ t.codeO = romRead s.rom 36) ∧
  (∀ (s : State) (ch : Char8), 0x41 ≤ ch.toNat → ch.toNat ≤ 0x5A →
    ∃ t u, exec (.convert ch) s = .next t ∧ exec (.convert (ch + 0x20#8)) s = .next u ∧ t.codeO = u.codeO) ∧
  (∀ s : State, romAdmissible s.rom = true → ∃ t u, exec (.convert 0x53#8) s = .next t ∧
    exec (.convert 0x73#8) s = .next u ∧ t.codeO = 0x00000035#32 ∧ u.codeO = 0x00000035#32)

/-- R81: the code depends on the character and the ROM alone, whatever the registers, the command and reset are. -/
def Obligations.ConvertDependsOnlyOnCharacterAndRom : Prop :=
  (∀ (ch : Char8) (s s' : State), s.rom = s'.rom →
    ∃ t t', exec (.convert ch) s = .next t ∧ exec (.convert ch) s' = .next t' ∧ t.codeO = t'.codeO) ∧
  (∀ (rst : Bool) (cw : CommandWord) (s : State), ∃ t, perform (.edge rst cw) s = .next t ∧
    t.codeO = convert s.rom (chField cw)) ∧
  (∀ (es : List Transaction) (ch : Char8) (s : State), ∃ t flags,
    observe (es ++ [.query ch]) s = .next (t, flags) ∧ t.codeO = convert s.rom ch)

/-- R82 (the spec's own inference from R63): a letter and its lower case, 0x20 above, select the same index and give the
same code, for every ROM. -/
def Obligations.UpperAndLowerCaseAgree : Prop :=
  ∀ (rom : RomTable) (ch : Char8), 0x41 ≤ ch.toNat → ch.toNat ≤ 0x5A →
    (romIndex ch).val = ch.toNat - 0x41 + 10 ∧ romIndex (ch + 0x20#8) = romIndex ch ∧
    convert rom ch = convert rom (ch + 0x20#8)

/-- R83: every character outside the three ranges gives what the space gives, entry 36; there are 194 of them. -/
def Obligations.EveryOtherCharacterIsWordGap : Prop :=
  (∀ (rom : RomTable) (ch : Char8), ¬ inThreeRanges ch →
    convert rom ch = convert rom 0x20#8 ∧ convert rom ch = romRead rom 36) ∧
  ((List.range 256).filter fun n =>
    !(decide (0x30 ≤ n ∧ n ≤ 0x39) || decide (0x41 ≤ n ∧ n ≤ 0x5A) || decide (0x61 ≤ n ∧ n ≤ 0x7A))).length = 194

/-- R84 (the spec's own inference from R45 and R63): with an admissible ROM every code is an entry and well formed, and a
cursor loaded by LOADC plays its data bits to idle without its sentinel. The last clause is about the default table (R49),
whose contents are PRESUMED (log 2). -/
def Obligations.LoadedCharacterPlaysToIdle : Prop :=
  (∀ (ch : Char8) (s : State) (es : List Transaction), romAdmissible s.rom = true → (∀ e ∈ es, isTick e = true) →
    es.length = ticks (convert s.rom ch) →
    (∃ idx, convert s.rom ch = romRead s.rom idx) ∧ codeWellFormed (convert s.rom ch) = true ∧
    ∃ u t, exec (.loadc ch) s = .next u ∧ u.idleO = false ∧
      observe es u = .next (t, dataBits (convert s.rom ch)) ∧ t.cursor = 0x00000000#32) ∧
  (∀ ch : Char8, 0x00000003#32 ≤ convert referenceRom ch ∧ convert referenceRom ch ≤ 0x000F7777#32 ∧
    (convert referenceRom ch).extractLsb' 20 12 = 0#12)

/- ---- The packed-code format and the ROM (20_memory.md) ---- -/

/-- R43: no transaction, step or run changes an entry of the ROM. -/
def Obligations.NothingWritesTheRom : Prop :=
  (∀ (e : Transaction) (s t : State), perform e s = .next t → ∀ idx, romRead t.rom idx = romRead s.rom idx) ∧
  (∀ s t : State, step s = .next t → t.rom = s.rom) ∧
  (∀ (es : List Transaction) (s : State), ∃ t flags, observe es s = .next (t, flags) ∧ t.rom = s.rom)

/-- R48, R45 (the spec's own inferences): the entries the source pins, their playback, and that a well-formed code is the
only one with its data bits. -/
def Obligations.PlaybackDeterminesTheCode : Prop :=
  (∀ v w : Word, 2#32 ≤ v → 2#32 ≤ w → dataBits v = dataBits w → v = w) ∧
  (∀ rom, romAdmissible rom = true →
    ∀ row ∈ ([(14, 0x00000003#32, [true]), (29, 0x0000000F#32, [true, true, true]),
        (28, 0x00000035#32, [true, false, true, false, true]),
        (17, 0x000000D5#32, [true, false, true, false, true, false, true]),
        (18, 0x0000000D#32, [true, false, true]),
        (5, 0x00000355#32, [true, false, true, false, true, false, true, false, true]),
        (36, 0x00000008#32, [false, false, false])] : List (Fin Config.romDepth × Word × List Bool)),
      romRead rom row.1 = row.2.1 ∧ dataBits (romRead rom row.1) = row.2.2)

/-- R44, R45, R46: a word built from 1 to 31 data bits and a sentinel above them is well formed, its value is the sum of
`d_i * 2^i` plus `2^k`, and its data bits are those. -/
def Obligations.PackedBitsAreTheDataBits : Prop :=
  ∀ bits : List Bool, bits ≠ [] → bits.length ≤ 31 →
    codeWellFormed (packBits bits) = true ∧ ticks (packBits bits) = bits.length ∧ dataBits (packBits bits) = bits ∧
    (packBits bits).toNat =
      ((List.range bits.length).map fun i => (bits.getD i false).toNat * 2 ^ i).sum + 2 ^ bits.length

/-- R46, R47, R49: the default table is admissible, each letter and digit entry is packed from its Morse code, entry 36
from three off ticks, the ticks are those of the table, and the facts R49 lists. The Morse codes the source does not give
are PRESUMED (log 2). -/
def Obligations.ReferenceTableIsPackedMorse : Prop :=
  romAdmissible referenceRom = true ∧
  referenceRom.toList = morseTable.map (fun ms => packBits (morseBits ms)) ++ [packBits [false, false, false]] ∧
  referenceRom.toList.map ticks =
    [19, 17, 15, 13, 11, 9, 11, 13, 15, 17, 5, 9, 11, 7, 1, 9, 9, 7] ++
    [3, 13, 9, 9, 7, 5, 11, 11, 13, 7, 5, 3, 7, 9, 9, 11, 13, 11, 3] ∧
  referenceRom.toList.Nodup ∧ (∀ idx : Fin Config.romDepth, romRead referenceRom idx ≤ 0x000F7777#32) ∧
  (∀ idx : Fin Config.romDepth, (romRead referenceRom idx).getLsbD 0 = decide (idx ≠ 36))

/- ---- State as a whole: who writes what (10_state.md) ---- -/

/-- R22: of all a host can do short of removing power, only an edge with reset, STEP, LOAD or LOADC changes the cursor;
CONVERT neither writes nor reads it. -/
def Obligations.OnlyFourWriteTheCursor : Prop :=
  (∀ (e : Transaction) (s t : State), e ≠ .powerCycle → perform e s = .next t → t.cursor ≠ s.cursor →
    ∃ rst cw, e = .edge rst cw ∧ (rst = true ∨ decodeCommand cw = .step ∨ (∃ data, decodeCommand cw = .load data) ∨
      ∃ ch, decodeCommand cw = .loadc ch)) ∧
  (∀ (ch : Char8) (s : State) (c : Word), ∃ t u, exec (.convert ch) s = .next t ∧ t.cursor = s.cursor ∧
    exec (.convert ch) { s with cursor := c } = .next u ∧ u.cursor = c ∧ u.codeO = t.codeO ∧ u.outQ = t.outQ)

/-- R23: `cursor_o` and `idle_o` show the register in every state, and after a STEP, LOAD or LOADC the value it wrote. -/
def Obligations.OutputsShowTheRegisters : Prop :=
  (∀ s : State, s.cursorO = s.cursor ∧ s.idleO = decide (s.cursor = 0x00000000#32)) ∧
  (∀ s : State, ∃ t, exec .step s = .next t ∧
    t.cursorO = (if s.cursor < 4#32 then 0x00000000#32 else s.cursor >>> 1) ∧
    t.idleO = decide (t.cursorO = 0x00000000#32)) ∧
  (∀ (data : Word) (s : State), ∃ t, exec (.load data) s = .next t ∧ t.cursorO = data ∧
    t.idleO = decide (data = 0x00000000#32)) ∧
  (∀ (ch : Char8) (s : State), ∃ t, exec (.loadc ch) s = .next t ∧ t.cursorO = convert s.rom ch ∧
    t.idleO = decide (convert s.rom ch = 0x00000000#32))

/-- R24: after any run that starts with a reset edge, and has no other reset and no loss of power, `out_q` is the flag of
the most recent STEP, and 0 if there was none; every operation but STEP leaves it; STEP's flag is `cursor[0]` before it. -/
def Obligations.OutputHoldsFlagOfLastStep : Prop :=
  (∀ (cw : CommandWord) (es : List Transaction) (s : State), (∀ e ∈ es, clearsOutput e = false) →
    ∃ t flags, observe (.edge true cw :: es) s = .next (t, flags) ∧ t.outQ = flags.getLast?.getD false ∧
      t.flagO = t.outQ) ∧
  (∀ (i : Instr) (s t : State), i ≠ .step → exec i s = .next t → t.outQ = s.outQ) ∧
  (∀ s : State, ∃ t, exec .step s = .next t ∧ t.outQ = s.cursor.getLsbD 0) ∧
  (∀ (e : Transaction) (s t : State), clearsOutput e = false → isTick e = false → perform e s = .next t →
    t.outQ = s.outQ)

/-- The frame of every operation and of every transaction (R20, R24, R29, R40, R43, R52, R96): beside the cursor (STEP, LOAD,
LOADC, reset), `out_q` (STEP, reset), both registers at a loss of power (R122) and the level the host drives on `ch_i`,
nothing changes, and every ROM entry reads as before. The clauses about the model's own fields are the model's choice and no
rule of the spec: `chI` is log 5, `pending` log 3, and `draws`, `drawSource` and what a loss of power leaves (`chI`,
`pending`) log 6. -/
def Obligations.OperationsChangeNothingElse : Prop :=
  (∀ (i : Instr) (s t : State), exec i s = .next t →
    (∀ idx, romRead t.rom idx = romRead s.rom idx) ∧ t.rom = s.rom ∧ t.pending = s.pending ∧ t.draws = s.draws ∧
    t.drawSource = s.drawSource ∧ (i ≠ .step → t.outQ = s.outQ) ∧
    ((i = .nop ∨ ∃ ch, i = .convert ch) → t.cursor = s.cursor) ∧
    ((i = .nop ∨ i = .step ∨ ∃ data, i = .load data) → t.chI = s.chI)) ∧
  (∀ (e : Transaction) (s t : State), perform e s = .next t →
    (∀ idx, romRead t.rom idx = romRead s.rom idx) ∧ t.rom = s.rom ∧ t.pending = s.pending ∧
    (e ≠ .powerCycle → t.draws = s.draws) ∧ t.drawSource = s.drawSource ∧
    (isTick e = false → clearsOutput e = false → t.outQ = s.outQ) ∧
    (isSilent e = true → t.cursor = s.cursor ∧ t.outQ = s.outQ) ∧
    (∀ rst cw, e = .edge rst cw → t.chI = chField cw) ∧ (∀ ch, e = .query ch → t.chI = ch) ∧
    (e = .powerCycle → t.chI = s.chI))

/-- R110: every operation, transaction and step answers a next state, and so does a run of any length. -/
def Obligations.EveryOperationAnswersNext : Prop :=
  (∀ (i : Instr) (s : State), ∃ t, exec i s = .next t) ∧
  (∀ (e : Transaction) (s : State), ∃ t, perform e s = .next t) ∧
  (∀ s : State, stepAnswersNext s) ∧
  (∀ (n : Nat) (s : State), ∃ t : State, Host.Core.run Sys2Proof.core n s = .next t)

/- ---- Commands, decoding, encoding (30_encoding.md) ---- -/

/-- R60, R61: a step runs what the host presents: at an edge with `rst` low the instruction its word decodes to, after the
word's character field has been driven on `ch_i`; for the encoder alone, CONVERT. A table word placed by `withFetchWord` is
run by the very next step (log 3, 7). -/
def Obligations.StepRunsPresentedInstruction : Prop :=
  (∀ (s : State) (cw : CommandWord) (rest : List Transaction), s.pending = .edge false cw :: rest →
    step s = exec (decode (.cmd42 cw)) ((s.withPending rest).driveCh (chField cw))) ∧
  (∀ (s : State) (ch : Char8) (rest : List Transaction), s.pending = .query ch :: rest →
    step s = exec (decode (.enc8 ch)) (s.withPending rest)) ∧
  (∀ (bytes : List Byte) (p : Presented), presentedOf bytes = .ok p → decodeBytes bytes = .ok (decode p)) ∧
  (∀ (s : State) (nbits w : Nat) (i : Instr), decodeTableWord nbits w = some i →
    ∃ u : State, u.cursor = s.cursor ∧ u.outQ = s.outQ ∧ u.rom = s.rom ∧ u.pending = s.pending ∧ u.draws = s.draws ∧
      u.drawSource = s.drawSource ∧ step (s.withFetchWord nbits w) = exec i u)

/-- When the host presents nothing the machine holds its registers: the model's reading of the idle bus (log 3). -/
def Obligations.IdleBusHoldsTheState : Prop :=
  ∀ s : State, s.pending = [] → step s = .next s

/-- R66: all four codes, all characters and all data are defined; fields an operation does not use change nothing; the
decoder of a command word never refuses. -/
def Obligations.EveryCommandWordDecodes : Prop :=
  (∀ cw : CommandWord,
    (cmdField cw = 0b00#2 ∧ decodeCommand cw = .nop) ∨ (cmdField cw = 0b01#2 ∧ decodeCommand cw = .step) ∨
    (cmdField cw = 0b10#2 ∧ decodeCommand cw = .load (dataField cw)) ∨
    (cmdField cw = 0b11#2 ∧ decodeCommand cw = .loadc (chField cw))) ∧
  (∀ cw cw' : CommandWord, cmdField cw = cmdField cw' → (cmdField cw = 0b10#2 → dataField cw = dataField cw') →
    (cmdField cw = 0b11#2 → chField cw = chField cw') → decodeCommand cw = decodeCommand cw') ∧
  (∀ cw : CommandWord, decodeBytes (bytesOf (.cmd42 cw)) = .ok (decodeCommand cw)) ∧
  (∀ ch : Char8, decodeBytes (bytesOf (.enc8 ch)) = .ok (.convert ch)) ∧
  (∀ (rom : RomTable) (ch : Char8), ¬ inThreeRanges ch → convert rom ch = romRead rom 36) ∧
  (∀ (data : Word) (s : State), ∃ t, exec (.load data) s = .next t ∧ t.cursor = data)

/-- R62, R68: decoding the bytes of an instruction's canonical encoding gives the instruction, and of the command words
that decode to an instruction exactly one has its unused fields 0: the canonical one. -/
def Obligations.DecodeInvertsEncode : Prop :=
  (∀ i : Instr, i.wellFormed = true → decodeBytes (encodeBytes i) = .ok i) ∧
  (∀ cw : CommandWord, encode (decodeCommand cw) = .cmd42 cw ↔
    ((cmdField cw ≠ 0b10#2 → dataField cw = 0x00000000#32) ∧ (cmdField cw ≠ 0b11#2 → chField cw = 0x00#8))) ∧
  (∀ i j : Instr, encodeBytes i = encodeBytes j → i = j)

/-- Encodings written out in 95_test_vectors.md section 2.5 decode to the operations they stand for. -/
def Obligations.WrittenWordsDecode : Prop :=
  decodeCommand 0x00000000000#42 = .nop ∧ decodeCommand 0x00000000001#42 = .step ∧
  decodeCommand 0x0000000D402#42 = .load 0x00000035#32 ∧ decodeCommand 0x3FFFFFFFC02#42 = .load 0xFFFFFFFF#32 ∧
  decodeCommand 0x00000000117#42 = .loadc 0x45#8 ∧ decodeCommand 0x000000001EB#42 = .loadc 0x7A#8 ∧
  decodeCommand 0x3FFFFFFFFFD#42 = .step ∧ decode (.enc8 0x48#8) = .convert 0x48#8

/-- R70: a run returns one flag for each STEP and none for anything else; NOP, LOAD and LOADC leave `out_q`. -/
def Obligations.OneFlagPerTick : Prop :=
  (∀ (es : List Transaction) (s : State), ∃ t flags, observe es s = .next (t, flags) ∧
    flags.length = es.countP isTick) ∧
  (∀ (cw : CommandWord) (s : State), cmdField cw ≠ 0b01#2 → ∃ t, perform (.edge false cw) s = .next t ∧
    t.outQ = s.outQ ∧ returned (.edge false cw) s = [])

/-- R69: `CLEAR` makes the cursor idle; `SEND` is a LOADC and as many STEPs as the code has ticks, emits the whole code and
ends idle; `GAP` is `SEND ' '` and emits three off ticks. For an admissible ROM. -/
def Obligations.PseudoInstructionsDoWhatTheyName : Prop :=
  (∀ s : State, expandLine s.rom .clear = [issue (.load 0x00000000#32)] ∧
    ∃ t, observe (expandLine s.rom .clear) s = .next (t, []) ∧ t.idleO = true ∧ t.outQ = s.outQ) ∧
  (∀ (ch : Char8) (s : State), romAdmissible s.rom = true →
    expandLine s.rom (.send ch.toNat) = issue (.loadc ch) :: List.replicate (ticks (convert s.rom ch)) (issue .step) ∧
    ∃ t, observe (expandLine s.rom (.send ch.toNat)) s = .next (t, dataBits (convert s.rom ch)) ∧ t.idleO = true) ∧
  (∀ s : State, romAdmissible s.rom = true →
    expandLine s.rom .gap = expandLine s.rom (.send 0x20) ∧
    expandLine s.rom .gap = issue (.loadc 0x20#8) :: List.replicate 3 (issue .step) ∧
    ∃ t, observe (expandLine s.rom .gap) s = .next (t, [false, false, false]) ∧ t.idleO = true)

/-- R68 on lines of text: `load 0x35 ; note`, `LOADC 'E'`, `LOADC 0x100`, `STEP STEP` (choices: log 11). -/
def Obligations.LinesOfTextAssemble : Prop :=
  parseLine ['l', 'o', 'a', 'd', ' ', '0', 'x', '3', '5', ' ', ';', ' ', 'n'] = .ok (some (.load 0x35)) ∧
  expandLine referenceRom (.load 0x35) = [.edge false 0x0000000D402#42] ∧
  parseLine ['L', 'O', 'A', 'D', 'C', ' ', '\'', 'E', '\''] = .ok (some (.loadc 0x45)) ∧
  expandLine referenceRom (.loadc 0x45) = [.edge false 0x00000000117#42] ∧
  parseLine ['L', 'O', 'A', 'D', 'C', ' ', '0', 'x', '1', '0', '0'] = .error .outOfRange ∧
  parseLine ['S', 'T', 'E', 'P', ' ', 'S', 'T', 'E', 'P'] = .error .trailingText

/- ---- Runs, hosts, and several instances ---- -/

/-- R136: a LOAD or LOADC while a character is being played takes effect at once, whatever was left of the character, and
keeps the last flag. -/
def Obligations.LoadDiscardsTheRestOfACharacter : Prop :=
  ∀ (s : State) (other : Word), s.cursor ≠ 0x00000000#32 →
    (∀ data, ∃ t, exec (.load data) s = .next t ∧ t.cursor = data ∧ t.outQ = s.outQ ∧
      exec (.load data) { s with cursor := other } = .next t) ∧
    (∀ ch, ∃ t, exec (.loadc ch) s = .next t ∧ t.cursor = convert s.rom ch ∧ t.outQ = s.outQ ∧
      exec (.loadc ch) { s with cursor := other } = .next t)

/-- R96, R81, R138: NOP cycles and encoder queries, wherever they stand in a run, change neither its flags nor its final
registers. That a loss of power in the run draws the same values with and without them is the model's choice (log 6). -/
def Obligations.PaddingDoesNotChangeTheFlags : Prop :=
  ∀ (es : List Transaction) (s : State), ∃ t u flags,
    observe es s = .next (t, flags) ∧ observe (es.filter fun e => !isSilent e) s = .next (u, flags) ∧
    u.cursor = t.cursor ∧ u.outQ = t.outQ

/-- R55, R141: running the machine on what the host presents is applying those transactions in order. (What the host
presents is `pending`, log 3, and what a loss of power draws is log 6; both are the model's choice.) -/
def Obligations.RunningIsObserving : Prop :=
  ∀ (es rest : List Transaction) (s : State), ∃ (t : State) (flags : List Bool),
    observe es (s.withPending rest) = .next (t, flags) ∧ t.pending = rest ∧
    Host.Core.run Sys2Proof.core es.length (s.withPending (es ++ rest)) = .next t

/-- R92, R84: an invariant of every step: with an admissible ROM and a host that never loads the bare sentinel 1, the cursor
never holds it, so no STEP emits a sentinel. -/
def Obligations.StepKeepsNoBareSentinel : Prop :=
  ∀ s t : State, NoBareSentinel s → step s = .next t → NoBareSentinel t

/-- R84, R97: an invariant of every step: with a host that sets the cursor only by LOADC, CLEAR or reset, the cursor is
idle or what is left of a ROM entry. -/
def Obligations.StepKeepsCursorRestOfEntry : Prop :=
  ∀ s t : State, CursorIsRestOfEntry s → step s = .next t → CursorIsRestOfEntry t

/-- Both invariants hold right after reset (log 2: with the default ROM). -/
def Obligations.ResetMeetsBothInvariants : Prop :=
  NoBareSentinel State.reset ∧ CursorIsRestOfEntry State.reset

/-- R135: the session of a host for any message, from any state, started or not: the flags are the characters' data bits
with three off ticks between two of them, it ends idle, and the host keeps the contract all along. For an admissible ROM;
the form of the session is the model's choice (log 12). -/
def Obligations.SessionEmitsTheMessage : Prop :=
  ∀ (message : List Char8) (s : State), romAdmissible s.rom = true →
    ∃ t, observe (transactionsOf s.rom (session s.rom message)) s = .next (t, messageBits s.rom message) ∧
      t.idleO = true ∧ keepsContract .first (session s.rom message) s

/-- R55, R120: a transaction or step of one instance is that of a CORE alone and leaves every other instance as it was; two
transactions of different instances, losses of power among them, may be exchanged. (How instances are put side by side is
log 13, and that each draws power-up values from a source of its own is log 6; both are the model's choice.) -/
def Obligations.InstancesDoNotInterfere : Prop :=
  (∀ (n : Nat) (sys : System n) (j k : Fin n) (e f : Transaction), j ≠ k →
    ∃ a b c, performAt j e sys = .next a ∧ perform e (sys.core j) = .next (a.core j) ∧
      (∀ m, m ≠ j → a.core m = sys.core m) ∧ performAt k f sys = .next b ∧
      performAt k f a = .next c ∧ performAt j e b = .next c) ∧
  (∀ (n : Nat) (sys : System n) (k : Fin n), ∃ a, stepAt k sys = .next a ∧ step (sys.core k) = .next (a.core k) ∧
    ∀ m, m ≠ k → a.core m = sys.core m)

/-- R59: one table serves every instance: nothing any instance does changes it, and after any interleaving every instance
reads, through its own classifier, what the one table holds; two instances that read at once read as each alone. -/
def Obligations.OneRomServesEveryInstance : Prop :=
  ∀ (n : Nat) (sys : System n) (ops : List (Fin n × Transaction)), ∃ a, performAll ops sys = .next a ∧ a.rom = sys.rom ∧
    (∀ k, (a.core k).rom = sys.rom) ∧
    (∀ (k : Fin n) (ch : Char8), ∃ b, performAt k (.query ch) a = .next b ∧ (b.core k).codeO = convert sys.rom ch) ∧
    (∀ (j k : Fin n) (ch ch' : Char8), j ≠ k → ∃ b, performAll [(j, .query ch), (k, .query ch')] a = .next b ∧
      (b.core j).codeO = convert sys.rom ch ∧ (b.core k).codeO = convert sys.rom ch')

/-- R55, R120: whatever the interleaving of the instances' transactions, each instance ends as a CORE alone ends on its own
transactions in their order. That an instance draws at a loss of power what a CORE alone draws is the model's choice: each
instance has a source and a counter of its own (log 6, log 13). -/
def Obligations.InterleavingIsUnobservable : Prop :=
  ∀ (n : Nat) (sys : System n) (ops : List (Fin n × Transaction)), ∃ a, performAll ops sys = .next a ∧
    ∀ k, ∃ flags, observe (transactionsAt k ops) (sys.core k) = .next (a.core k, flags)

/-- R135, the column "hardware gives back", row by row, in every state that meets the row's condition on `idle_o`. For an
admissible ROM where the row needs a character's code to be one. -/
def Obligations.ContractRowsGiveBack : Prop :=
  ∀ s : State, romAdmissible s.rom = true →
    (∀ i : Interaction, i = .reset ∨ i = .clear ∨ i = .abandonByClear → ∃ t, observe (i.sends s.rom) s = .next (t, []) ∧ t.idleO = true) ∧
    (∀ ch raw, s.idleO = true → ∃ t, observe ((Interaction.character ch raw).sends s.rom) s = .next (t, []) ∧
      t.idleO = false ∧ t.cursor = convert s.rom ch ∧ t.outQ = s.outQ) ∧
    (s.idleO = false → ∃ t, observe (Interaction.tick.sends s.rom) s = .next (t, [s.cursor.getLsbD 0]) ∧
      t.flagO = s.cursor.getLsbD 0 ∧ (t.idleO = true ↔ s.cursor < 4#32)) ∧
    (s.idleO = true → ∃ t, observe (transactionsOf s.rom playGap) s = .next (t, [false, false, false]) ∧ t.idleO = true) ∧
    (∀ data, s.idleO = false → ∃ t, observe ((Interaction.abandonByLoad data).sends s.rom) s = .next (t, []) ∧
      t.cursor = data ∧ t.outQ = s.outQ) ∧
    (∀ ch, s.idleO = false → ∃ t, observe ((Interaction.abandonByLoadc ch).sends s.rom) s = .next (t, []) ∧
      t.cursor = convert s.rom ch ∧ t.outQ = s.outQ) ∧
    (∃ t, observe (Interaction.idleCycle.sends s.rom) s = .next (t, []) ∧ t.cursor = s.cursor ∧ t.outQ = s.outQ) ∧
    (s.idleO = true → ∃ t, observe (Interaction.idleStep.sends s.rom) s = .next (t, [false]) ∧
      t.cursor = s.cursor ∧ t.outQ = false)

/-- R135, H7: `NOP`, any number, wherever it stands between commands, neither breaks nor mends the contract: a host keeps it
exactly when it keeps it without its NOPs. -/
def Obligations.IdleCyclesBreakNoDuty : Prop :=
  ∀ (h : Standing) (doing : List Interaction) (s : State),
    keepsContract h doing s ↔ keepsContract h (doing.filter (· != .idleCycle)) s

/-- R135, H4, H6: every tick of a host that keeps the contract is followed, but for NOPs, by the test of `idle_o`, read as
the tick left it, or by giving the character up, and the host does one of these before it ends; and so does a host that
already owes the test. (That giving up, by a reset, a CLEAR or a command of H6, lifts the test, and that a host may not end
owing it, is the model's choice, log 12.) -/
def Obligations.TickIsTestedOrCharacterGivenUp : Prop :=
  (∀ (h : Standing) (doing : List Interaction) (s : State), keepsContract h (.tick :: doing) s →
    ∃ t, observe (Interaction.tick.sends s.rom) s = .next (t, [s.cursor.getLsbD 0]) ∧
      ∃ (n : Nat) (i : Interaction) (more : List Interaction), doing = List.replicate n .idleCycle ++ i :: more ∧
        (i = .testIdle t.idleO ∨ i = .reset ∨ i = .clear ∨
          t.idleO = false ∧ (i = .abandonByClear ∨ (∃ data, i = .abandonByLoad data) ∨ ∃ ch, i = .abandonByLoadc ch))) ∧
  (∀ (h : Standing) (doing : List Interaction) (s : State), h.owesTest = true → keepsContract h doing s →
    ∃ (n : Nat) (i : Interaction) (more : List Interaction), doing = List.replicate n .idleCycle ++ i :: more ∧
      (i = .testIdle s.idleO ∨ i = .reset ∨ i = .clear ∨
        s.idleO = false ∧ (i = .abandonByClear ∨ (∃ data, i = .abandonByLoad data) ∨ ∃ ch, i = .abandonByLoadc ch)))
end

