-- ==== Sys2Proof/Laws/Encoding.lean ====
section
/-! SUPPORT. Command words taken apart and put together (30_encoding.md R62), and the bytes of both formats. -/

namespace Sys2Proof

/-- The fields of a command word are what it was put together from (R62). -/
theorem fields_commandWord (data : Word) (ch : Char8) (cmd : BitVec 2) :
    dataField (commandWord data ch cmd) = data ∧ chField (commandWord data ch cmd) = ch ∧
    cmdField (commandWord data ch cmd) = cmd := by
  refine ⟨?_, ?_, ?_⟩ <;> apply BitVec.eq_of_getLsbD_eq <;> intro i hi <;>
    simp only [dataField, chField, cmdField, commandWord, BitVec.getLsbD_extractLsb', BitVec.getLsbD_append, hi,
      decide_true, Bool.true_and]
  · rw [if_neg (by omega), if_neg (by omega)]
    congr 1; omega
  · rw [if_neg (by omega), if_pos (by omega)]
    congr 1; omega
  · rw [if_pos (by omega), Nat.zero_add]

/-- A command word is its three fields: no bit is left over (R62). -/
theorem commandWord_fields (cw : CommandWord) : commandWord (dataField cw) (chField cw) (cmdField cw) = cw := by
  apply BitVec.eq_of_getLsbD_eq
  intro i hi
  simp only [commandWord, dataField, chField, cmdField, BitVec.getLsbD_append, BitVec.getLsbD_extractLsb']
  split_ifs
  all_goals
    rw [decide_eq_true (by omega), Bool.true_and]
    congr 1; omega

/-- Six bytes, the first lowest, are the word they were cut from. -/
theorem append_bytes (w : BitVec 48) :
    (w.extractLsb' (8 * 5) 8 ++ w.extractLsb' (8 * 4) 8 ++ w.extractLsb' (8 * 3) 8 ++ w.extractLsb' (8 * 2) 8 ++
      w.extractLsb' (8 * 1) 8 ++ w.extractLsb' (8 * 0) 8 : BitVec 48) = w := by
  apply BitVec.eq_of_getLsbD_eq
  intro i hi
  simp only [BitVec.getLsbD_append, BitVec.getLsbD_extractLsb']
  split_ifs
  all_goals
    rw [decide_eq_true (by omega), Bool.true_and]
    congr 1; omega

/-- The bytes of an encoded operation are read back as it (log 7). -/
theorem presentedOf_bytesOf (p : Presented) : presentedOf (bytesOf p) = .ok p := by
  cases p with
  | enc8 ch => rfl
  | cmd42 cw =>
    have hpad : (cw.setWidth 48).extractLsb' 42 6 = 0#6 := by
      apply BitVec.eq_of_getLsbD_eq
      intro i hi
      simp [BitVec.getLsbD_extractLsb', BitVec.getLsbD_setWidth]
    have hcut : (cw.setWidth 48).setWidth 42 = cw := by simp
    simp only [bytesOf, List.range, List.range.loop, List.map, presentedOf]
    rw [append_bytes, if_pos hpad, hcut]

end Sys2Proof
end

