-- ==== Sys2Proof/Laws/State.lean ====
section
/-! SUPPORT. One lemma per field per update of State, so that no later proof unfolds a record update. -/

namespace Sys2Proof.Machine

variable (s : State) (v : Word) (b : Bool) (ch : Char8) (es : List Transaction)

@[simp] theorem State.writeCursor_cursor : (s.writeCursor v).cursor = v := rfl
@[simp] theorem State.writeCursor_outQ : (s.writeCursor v).outQ = s.outQ := rfl
@[simp] theorem State.writeCursor_rom : (s.writeCursor v).rom = s.rom := rfl
@[simp] theorem State.writeCursor_chI : (s.writeCursor v).chI = s.chI := rfl
@[simp] theorem State.writeCursor_pending : (s.writeCursor v).pending = s.pending := rfl
@[simp] theorem State.writeCursor_draws : (s.writeCursor v).draws = s.draws := rfl
@[simp] theorem State.writeCursor_drawSource : (s.writeCursor v).drawSource = s.drawSource := rfl

@[simp] theorem State.writeOutQ_cursor : (s.writeOutQ b).cursor = s.cursor := rfl
@[simp] theorem State.writeOutQ_outQ : (s.writeOutQ b).outQ = b := rfl
@[simp] theorem State.writeOutQ_rom : (s.writeOutQ b).rom = s.rom := rfl
@[simp] theorem State.writeOutQ_chI : (s.writeOutQ b).chI = s.chI := rfl
@[simp] theorem State.writeOutQ_pending : (s.writeOutQ b).pending = s.pending := rfl
@[simp] theorem State.writeOutQ_draws : (s.writeOutQ b).draws = s.draws := rfl
@[simp] theorem State.writeOutQ_drawSource : (s.writeOutQ b).drawSource = s.drawSource := rfl

@[simp] theorem State.driveCh_cursor : (s.driveCh ch).cursor = s.cursor := rfl
@[simp] theorem State.driveCh_outQ : (s.driveCh ch).outQ = s.outQ := rfl
@[simp] theorem State.driveCh_rom : (s.driveCh ch).rom = s.rom := rfl
@[simp] theorem State.driveCh_chI : (s.driveCh ch).chI = ch := rfl
@[simp] theorem State.driveCh_pending : (s.driveCh ch).pending = s.pending := rfl
@[simp] theorem State.driveCh_draws : (s.driveCh ch).draws = s.draws := rfl
@[simp] theorem State.driveCh_drawSource : (s.driveCh ch).drawSource = s.drawSource := rfl

@[simp] theorem State.withPending_cursor : (s.withPending es).cursor = s.cursor := rfl
@[simp] theorem State.withPending_outQ : (s.withPending es).outQ = s.outQ := rfl
@[simp] theorem State.withPending_rom : (s.withPending es).rom = s.rom := rfl
@[simp] theorem State.withPending_chI : (s.withPending es).chI = s.chI := rfl
@[simp] theorem State.withPending_pending : (s.withPending es).pending = es := rfl
@[simp] theorem State.withPending_draws : (s.withPending es).draws = s.draws := rfl
@[simp] theorem State.withPending_drawSource : (s.withPending es).drawSource = s.drawSource := rfl

@[simp] theorem resetEdge_cursor : (resetEdge s).cursor = 0x00000000#32 := rfl
@[simp] theorem resetEdge_outQ : (resetEdge s).outQ = false := rfl
@[simp] theorem resetEdge_rom : (resetEdge s).rom = s.rom := rfl
@[simp] theorem resetEdge_chI : (resetEdge s).chI = s.chI := rfl
@[simp] theorem resetEdge_pending : (resetEdge s).pending = s.pending := rfl
@[simp] theorem resetEdge_draws : (resetEdge s).draws = s.draws := rfl
@[simp] theorem resetEdge_drawSource : (resetEdge s).drawSource = s.drawSource := rfl

@[simp] theorem powerCycle_cursor : (powerCycle s).cursor = Config.powerUpCursor s.drawSource s.draws := rfl
@[simp] theorem powerCycle_outQ : (powerCycle s).outQ = Config.powerUpOutQ s.drawSource s.draws := rfl
@[simp] theorem powerCycle_rom : (powerCycle s).rom = s.rom := rfl
@[simp] theorem powerCycle_chI : (powerCycle s).chI = s.chI := rfl
@[simp] theorem powerCycle_pending : (powerCycle s).pending = s.pending := rfl
@[simp] theorem powerCycle_draws : (powerCycle s).draws = s.draws + 1 := rfl
@[simp] theorem powerCycle_drawSource : (powerCycle s).drawSource = s.drawSource := rfl

@[simp] theorem State.codeO_eq : s.codeO = convert s.rom s.chI := rfl
@[simp] theorem State.codeI_eq : s.codeI = convert s.rom s.chI := rfl
@[simp] theorem State.flagO_eq : s.flagO = s.outQ := rfl
@[simp] theorem State.cursorO_eq : s.cursorO = s.cursor := rfl
@[simp] theorem State.idleO_eq : s.idleO = isIdle s.cursor := rfl

@[simp] theorem State.reset_cursor : State.reset.cursor = 0x00000000#32 := rfl
@[simp] theorem State.reset_outQ : State.reset.outQ = false := rfl
@[simp] theorem State.reset_rom : State.reset.rom = referenceRom := rfl
@[simp] theorem State.reset_chI : State.reset.chI = 0x00#8 := rfl
@[simp] theorem State.reset_pending : State.reset.pending = [] := rfl
@[simp] theorem State.reset_draws : State.reset.draws = 0 := rfl
@[simp] theorem State.reset_drawSource : State.reset.drawSource = 0 := rfl

end Sys2Proof.Machine
end

