-- ==== Sys2Proof/Laws/Ops.lean ====
section
/-! SUPPORT. What the shared operations do: the cursor's advance, the classifier, the ROM read and the checks on packed
codes. -/

namespace Sys2Proof.Machine

theorem isIdle_iff (c : Word) : isIdle c = true ↔ c = 0#32 := by simp [isIdle]

/-- Below the cutoff the cursor becomes idle (R90). -/
theorem advance_of_lt {c : Word} (h : c.toNat < 4) : advance c = 0#32 := by
  have h' : c < 4#32 := by simpa [BitVec.lt_def] using h
  simp [advance, h']

/-- From the cutoff on the cursor is shifted (R90, R93). -/
theorem advance_of_ge {c : Word} (h : 4 ≤ c.toNat) : advance c = c >>> 1 := by
  have h' : ¬ c < 4#32 := by simpa [BitVec.lt_def] using h
  simp [advance, h']

theorem advance_toNat (c : Word) : (advance c).toNat = if c.toNat < 4 then 0 else c.toNat / 2 := by
  split
  · next h => simp [advance_of_lt h]
  · next h => simp [advance_of_ge (Nat.le_of_not_lt h), BitVec.toNat_ushiftRight, Nat.shiftRight_eq_div_pow]

/-- No STEP leaves the bare sentinel 1 (R90, R92). -/
theorem advance_ne_one (c : Word) : advance c ≠ 1#32 := by
  intro h
  have := congrArg BitVec.toNat h
  simp only [advance_toNat, BitVec.toNat_ofNat] at this
  split at this <;> omega

theorem emittedFlag_eq (c : Word) : emittedFlag c = decide (c.toNat % 2 = 1) := by
  simp [emittedFlag, BitVec.getLsbD, Nat.testBit_zero]

theorem codeWellFormed_iff (v : Word) : codeWellFormed v = true ↔ 2 ≤ v.toNat := by
  simp [codeWellFormed, BitVec.le_def]

/-- Every entry of an admissible ROM is a well-formed packed code (R45). -/
theorem two_le_romRead {rom : RomTable} (h : romAdmissible rom = true) (idx : Fin Config.romDepth) :
    2 ≤ (romRead rom idx).toNat := by
  simp only [romAdmissible, Bool.and_eq_true, List.all_eq_true] at h
  refine (codeWellFormed_iff _).1 (h.1.1.1.1.1.1.1 _ ?_)
  simp [romRead, Vector.get, Vector.toList]

/-- Entry 36 of an admissible ROM is the word gap (R47). -/
theorem romRead_wordGap {rom : RomTable} (h : romAdmissible rom = true) : romRead rom 36 = 0x00000008#32 := by
  simp only [romAdmissible, Bool.and_eq_true, beq_iff_eq] at h
  exact h.2

theorem two_le_convert {rom : RomTable} (h : romAdmissible rom = true) (ch : Char8) : 2 ≤ (convert rom ch).toNat :=
  two_le_romRead h _

/-- CONVERT depends on the character only through its index (R80). -/
theorem convert_congr (rom : RomTable) {c d : Char8} (h : romIndex6 c = romIndex6 d) : convert rom c = convert rom d := by
  simp [convert, romIndex, h]

end Sys2Proof.Machine
end

