-- ==== Sys2Proof/Laws/Step.lean ====
section
/-! SUPPORT. What one operation, one transaction and one step do, said once (R60, R80, R90, R94-R96, R130). -/

namespace Sys2Proof.Machine

variable (s : State)

@[simp] theorem exec_nop_eq : exec .nop s = .next s := rfl

@[simp] theorem exec_step_eq :
    exec .step s = .next ((s.writeCursor (advance s.cursor)).writeOutQ (emittedFlag s.cursor)) := rfl

@[simp] theorem exec_load_eq (data : Word) : exec (.load data) s = .next (s.writeCursor data) := rfl

@[simp] theorem exec_loadc_eq (ch : Char8) :
    exec (.loadc ch) s = .next ((s.driveCh ch).writeCursor (convert s.rom ch)) := rfl

@[simp] theorem exec_convert_eq (ch : Char8) : exec (.convert ch) s = .next (s.driveCh ch) := rfl

@[simp] theorem perform_reset_eq (cw : CommandWord) :
    perform (.edge true cw) s = .next (resetEdge (s.driveCh (chField cw))) := rfl

@[simp] theorem perform_command_eq (cw : CommandWord) :
    perform (.edge false cw) s = exec (decodeCommand cw) (s.driveCh (chField cw)) := rfl

@[simp] theorem perform_query_eq (ch : Char8) : perform (.query ch) s = .next (s.driveCh ch) := rfl

@[simp] theorem perform_powerCycle_eq : perform .powerCycle s = .next (powerCycle s) := rfl

/-- The four things a command word can decode to, with the code that selects each (R61). -/
theorem decodeCommand_cases (cw : CommandWord) :
    (cmdField cw = 0b00#2 ∧ decodeCommand cw = .nop) ∨ (cmdField cw = 0b01#2 ∧ decodeCommand cw = .step) ∨
    (cmdField cw = 0b10#2 ∧ decodeCommand cw = .load (dataField cw)) ∨
    (cmdField cw = 0b11#2 ∧ decodeCommand cw = .loadc (chField cw)) := by
  have h : ∀ c : BitVec 2, c = 0b00#2 ∨ c = 0b01#2 ∨ c = 0b10#2 ∨ c = 0b11#2 := by decide
  rcases h (cmdField cw) with h | h | h | h <;> simp [decodeCommand, h]

/-- Everything one transaction can do, guards included. -/
theorem perform_cases (e : Transaction) (s : State) :
    (∃ cw, e = .edge true cw ∧ perform e s = .next (resetEdge (s.driveCh (chField cw)))) ∨
    (∃ cw, e = .edge false cw ∧ cmdField cw = 0b00#2 ∧ perform e s = .next (s.driveCh (chField cw))) ∨
    (∃ cw, e = .edge false cw ∧ cmdField cw = 0b01#2 ∧ perform e s =
      .next (((s.driveCh (chField cw)).writeCursor (advance s.cursor)).writeOutQ (emittedFlag s.cursor))) ∨
    (∃ cw, e = .edge false cw ∧ cmdField cw = 0b10#2 ∧
      perform e s = .next ((s.driveCh (chField cw)).writeCursor (dataField cw))) ∨
    (∃ cw, e = .edge false cw ∧ cmdField cw = 0b11#2 ∧
      perform e s = .next ((s.driveCh (chField cw)).writeCursor (convert s.rom (chField cw)))) ∨
    (∃ ch, e = .query ch ∧ perform e s = .next (s.driveCh ch)) ∨
    (e = .powerCycle ∧ perform e s = .next (powerCycle s)) := by
  match e with
  | .edge true cw => exact .inl ⟨cw, rfl, rfl⟩
  | .query ch => exact .inr (.inr (.inr (.inr (.inr (.inl ⟨ch, rfl, rfl⟩)))))
  | .powerCycle => exact .inr (.inr (.inr (.inr (.inr (.inr ⟨rfl, rfl⟩)))))
  | .edge false cw =>
    refine .inr ?_
    rcases decodeCommand_cases cw with ⟨h, hd⟩ | ⟨h, hd⟩ | ⟨h, hd⟩ | ⟨h, hd⟩
    · exact .inl ⟨cw, rfl, h, by simp [hd]⟩
    · exact .inr (.inl ⟨cw, rfl, h, by simp [hd]⟩)
    · exact .inr (.inr (.inl ⟨cw, rfl, h, by simp [hd]⟩))
    · exact .inr (.inr (.inr (.inl ⟨cw, rfl, h, by rw [perform_command_eq, hd]; rfl⟩)))

/-- A transaction always answers a next state; it neither writes the ROM nor touches what is pending or where free values
come from (R43, R110). -/
theorem perform_next (e : Transaction) (s : State) :
    ∃ t, perform e s = .next t ∧ t.rom = s.rom ∧ t.pending = s.pending ∧ t.drawSource = s.drawSource := by
  rcases perform_cases e s with ⟨_, _, h⟩ | ⟨_, _, _, h⟩ | ⟨_, _, _, h⟩ | ⟨_, _, _, h⟩ | ⟨_, _, _, h⟩ | ⟨_, _, h⟩ | ⟨_, h⟩ <;>
    exact ⟨_, h, rfl, rfl, rfl⟩

theorem step_of_pending {s : State} {e : Transaction} {rest : List Transaction} (h : s.pending = e :: rest) :
    step s = perform e (s.withPending rest) := by
  simp [step, performNext, h]

theorem step_of_idle {s : State} (h : s.pending = []) : step s = .next s := by
  simp [step, performNext, performIdle, h]

/-- A step is an idle cycle or the host's next transaction. -/
theorem step_cases (s : State) :
    (s.pending = [] ∧ step s = .next s) ∨
    ∃ e rest, s.pending = e :: rest ∧ step s = perform e (s.withPending rest) := by
  cases h : s.pending with
  | nil => exact .inl ⟨rfl, step_of_idle h⟩
  | cons e rest => exact .inr ⟨e, rest, rfl, step_of_pending h⟩

end Sys2Proof.Machine
end

