-- ==== Sys2Proof/Laws/Playback.lean ====
section
/-! SUPPORT. Runs taken apart: one transaction at a time, and one STEP at a time (R70, R90, R141). -/

namespace Sys2Proof.Machine

@[simp] theorem observe_nil (s : State) : observe [] s = .next (s, []) := rfl

/-- A run whose first transaction answers `s'` goes on from `s'`. -/
theorem observe_cons {e : Transaction} {es : List Transaction} {s s' t : State} {flags : List Bool}
    (h : perform e s = .next s') (hs : observe es s' = .next (t, flags)) :
    observe (e :: es) s = .next (t, returned e s ++ flags) := by
  simp [observe, h, hs]

/-- A run over two lists is the run over the second after the run over the first. -/
theorem observe_append {es fs : List Transaction} {s t u : State} {a b : List Bool}
    (h : observe es s = .next (t, a)) (h' : observe fs t = .next (u, b)) :
    observe (es ++ fs) s = .next (u, a ++ b) := by
  induction es generalizing s a with
  | nil =>
    simp only [observe_nil, Host.Outcome.next.injEq, Prod.mk.injEq] at h
    obtain ⟨rfl, rfl⟩ := h
    simpa using h'
  | cons e es ih =>
    simp only [observe] at h
    split at h <;> try contradiction
    next s' hp =>
      split at h <;> try contradiction
      next t' flags ho =>
        simp only [Host.Outcome.next.injEq, Prod.mk.injEq] at h
        obtain ⟨rfl, rfl⟩ := h
        simpa using observe_cons hp (ih ho)

/-- What a tick does: the flag it returns and the state it leaves (R70, R90). -/
theorem perform_tick {e : Transaction} (h : isTick e = true) (s : State) :
    returned e s = [emittedFlag s.cursor] ∧
    ∃ t, perform e s = .next t ∧ t.cursor = advance s.cursor ∧ t.outQ = emittedFlag s.cursor ∧ t.rom = s.rom := by
  match e, h with
  | .edge false cw, h =>
    have hc : cmdField cw = 0b01#2 := by simpa [isTick] using h
    have hd : decodeCommand cw = .step := by simp [decodeCommand, hc]
    refine ⟨by simp [returned, hd], (s.driveCh (chField cw)).writeCursor (advance s.cursor) |>.writeOutQ
      (emittedFlag s.cursor), ?_, rfl, rfl, rfl⟩
    simp [hd]

/-- The flags of `n` STEPs from a cursor. -/
def runFlags : Nat → Word → List Bool
  | 0, _ => []
  | n + 1, c => emittedFlag c :: runFlags n (advance c)

/-- The cursor after `n` STEPs. -/
def runCursor : Nat → Word → Word
  | 0, c => c
  | n + 1, c => runCursor n (advance c)

/-- A run of ticks, said once (R70, R90). -/
theorem observe_ticks (es : List Transaction) (s : State) (h : ∀ e ∈ es, isTick e = true) :
    ∃ t, observe es s = .next (t, runFlags es.length s.cursor) ∧ t.cursor = runCursor es.length s.cursor ∧
      t.outQ = (runFlags es.length s.cursor).getLast?.getD s.outQ ∧ t.rom = s.rom := by
  induction es generalizing s with
  | nil => exact ⟨s, rfl, rfl, rfl, rfl⟩
  | cons e es ih =>
    obtain ⟨hr, s', hp, hc, hq, hrom⟩ := perform_tick (h e (by simp)) s
    obtain ⟨t, ho, htc, htq, htr⟩ := ih s' (fun e he => h e (by simp [he]))
    refine ⟨t, ?_, by rw [htc, hc]; rfl, ?_, htr.trans hrom⟩
    · have := observe_cons hp ho
      rw [hr, hc] at this
      exact this
    · rw [htq, hc, hq]
      simp only [List.length_cons, runFlags, List.getLast?_cons, Option.getD_some]

theorem runCursor_idle (n : Nat) : runCursor n 0#32 = 0#32 := by
  induction n with
  | zero => rfl
  | succ n ih => rw [runCursor, advance_of_lt (by decide)]; exact ih

theorem runFlags_idle (n : Nat) : runFlags n 0#32 = List.replicate n false := by
  induction n with
  | zero => rfl
  | succ n ih => rw [runFlags, advance_of_lt (by decide), ih]; rfl

/-- The bounds of the packed value: the sentinel is its highest bit (R46). -/
theorem packNat_bounds (bits : List Bool) : 2 ^ bits.length ≤ packNat bits ∧ packNat bits < 2 ^ (bits.length + 1) := by
  induction bits with
  | nil => simp [packNat]
  | cons b bs ih =>
    simp only [packNat, List.length_cons, pow_succ] at *
    have : b.toNat ≤ 1 := by cases b <;> simp
    omega

/-- The canonical STEP command is a tick. -/
theorem isTick_issue_step : isTick (issue .step) = true := by decide

end Sys2Proof.Machine
end

