-- ==== Sys2Proof/Laws/HostLoop.lean ====
section
/-! SUPPORT. What a host sends, taken apart (R135). -/

namespace Sys2Proof.Machine

variable (rom : RomTable)

@[simp] theorem transactionsOf_nil : transactionsOf rom [] = [] := rfl

@[simp] theorem transactionsOf_cons (i : Interaction) (more : List Interaction) :
    transactionsOf rom (i :: more) = i.sends rom ++ transactionsOf rom more := rfl

@[simp] theorem transactionsOf_append (a b : List Interaction) :
    transactionsOf rom (a ++ b) = transactionsOf rom a ++ transactionsOf rom b := by
  simp [transactionsOf]

/-- The tested ticks of a character are that many STEPs (H3, H4). -/
theorem transactionsOf_testedTicks (n : Nat) :
    transactionsOf rom (testedTicks n) = List.replicate n (issue .step) := by
  induction n with
  | zero => rfl
  | succ n ih => simp [testedTicks, Interaction.sends, ih, List.replicate_succ]

/-- Playing a character sends what `SEND` expands to (R69, H2 to H4). -/
theorem transactionsOf_playCharacter (ch : Char8) :
    transactionsOf rom (playCharacter rom ch) = (sendCommands rom ch).map issue := by
  simp [playCharacter, Interaction.sends, transactionsOf_testedTicks, sendCommands]

/-- The gap between two characters sends what `SEND ' '` expands to where the word-gap code has 3 ticks (R47, R69, H5). -/
theorem transactionsOf_playGap :
    transactionsOf rom playGap = issue (.loadc 0x20#8) :: List.replicate 3 (issue .step) := rfl

@[simp] theorem leaves_idleCycle (h : Standing) : Interaction.idleCycle.leaves h = h := rfl

@[simp] theorem leaves_clear (h : Standing) : Interaction.clear.leaves h = .clean := rfl

@[simp] theorem leaves_reset (h : Standing) : Interaction.reset.leaves h = .clean := rfl

@[simp] theorem leaves_tick_started (h : Standing) : (Interaction.tick.leaves h).started = h.started := rfl

@[simp] theorem leaves_tick_owesTest (h : Standing) : (Interaction.tick.leaves h).owesTest = true := rfl

@[simp] theorem leaves_testIdle (h : Standing) (b : Bool) :
    (Interaction.testIdle b).leaves h = { h with owesTest := false } := rfl

end Sys2Proof.Machine
end

