-- ==== Sys2Proof/Laws/Instances.lean ====
section
/-! SUPPORT. What several instances do, said once (R55, R59, R120). -/

namespace Sys2Proof.Machine

variable {n : Nat} (sys : System n) (k : Fin n)

@[simp] theorem System.core_rom : (sys.core k).rom = sys.rom := rfl

@[simp] theorem System.core_drawSource : (sys.core k).drawSource = k.val := rfl

/-- An instance takes what a CORE became, if that kept the shared ROM and the source of free values. -/
theorem System.core_set_self {s : State} (hr : s.rom = sys.rom) (hd : s.drawSource = k.val) :
    ({ sys with members := sys.members.set k s.member } : System n).core k = s := by
  cases s
  simp_all [System.core, State.member, Vector.get_eq_getElem]

/-- No other instance is touched. -/
theorem System.core_set_other {m : Fin n} (h : m ≠ k) (x : Member) :
    ({ sys with members := sys.members.set k x } : System n).core m = sys.core m := by
  have h' : k.val ≠ m.val := fun e => h (Fin.ext e.symm)
  simp [System.core, Vector.get_eq_getElem, h']

/-- What an instance does is what its CORE does: an act that keeps the ROM and the source of free values acts on that
instance, and on nothing else. -/
theorem onCore_next {act : State → Host.Outcome State Fault Refusal} {t : State} (h : act (sys.core k) = .next t)
    (hr : t.rom = sys.rom) (hd : t.drawSource = k.val) :
    onCore k act sys = .next { sys with members := sys.members.set k t.member } ∧
    ({ sys with members := sys.members.set k t.member } : System n).core k = t ∧
    ∀ m, m ≠ k → ({ sys with members := sys.members.set k t.member } : System n).core m = sys.core m :=
  ⟨by simp [onCore, h], sys.core_set_self k hr hd, fun _ hm => sys.core_set_other k hm _⟩

end Sys2Proof.Machine
end

