-- ==== Sys2Proof/Laws/PerInstr.lean ====
section
/-! SUPPORT. The facts about an instruction as syntax, one lemma per constructor. -/

namespace Sys2Proof.Laws.CanonicalEncoding

open Sys2Proof

/-- The instruction is well formed, its canonical encoding decodes to it, and in a command word every field it does not use
is 0 (R62, R68). -/
def Statement (i : Instr) : Prop :=
  i.wellFormed = true ∧ decode (encode i) = i ∧
  ∀ cw, encode i = .cmd42 cw →
    ((∀ data, i ≠ .load data) → dataField cw = 0#32) ∧ ((∀ ch, i ≠ .loadc ch) → chField cw = 0#8)

theorem nop : Statement .nop := by
  refine ⟨rfl, by decide, fun cw h => ?_⟩
  simp only [encode, Presented.cmd42.injEq] at h
  subst h
  exact ⟨fun _ => by decide, fun _ => by decide⟩

theorem step : Statement .step := by
  refine ⟨rfl, by decide, fun cw h => ?_⟩
  simp only [encode, Presented.cmd42.injEq] at h
  subst h
  exact ⟨fun _ => by decide, fun _ => by decide⟩

theorem load (data : Word) : Statement (.load data) := by
  obtain ⟨hd, hc, hm⟩ := fields_commandWord data 0#8 0b10#2
  refine ⟨rfl, ?_, fun cw h => ?_⟩
  · simp [decode, encode, decodeCommand, hd, hm]
  · simp only [encode, Presented.cmd42.injEq] at h
    subst h
    exact ⟨fun h => absurd rfl (h data), fun _ => hc⟩

theorem loadc (ch : Char8) : Statement (.loadc ch) := by
  obtain ⟨hd, hc, hm⟩ := fields_commandWord 0#32 ch 0b11#2
  refine ⟨rfl, ?_, fun cw h => ?_⟩
  · simp [decode, encode, decodeCommand, hc, hm]
  · simp only [encode, Presented.cmd42.injEq] at h
    subst h
    exact ⟨fun _ => hd, fun h => absurd rfl (h ch)⟩

theorem convert (ch : Char8) : Statement (.convert ch) :=
  ⟨rfl, rfl, fun cw h => by simp [encode] at h⟩

end Sys2Proof.Laws.CanonicalEncoding
end

