-- ==== Sys2Proof/Tests/Slice0.lean ====
section
/-! SUPPORT. The model's own tests: expected values are the vectors of spec/95_test_vectors.md and the tables of
20_memory.md and 30_encoding.md; and the witnesses that the statements' hypotheses can be met. -/

namespace Sys2Proof.Tests

open Sys2Proof Sys2Proof.Machine

/-- A state with these two registers, otherwise as after reset. -/
def mk (cursor : Word) (outQ : Bool) : State := { State.reset with cursor := cursor, outQ := outQ }

/-- The registers and `code_o` of a next state. -/
def regs : Host.Outcome State Fault Refusal → Option (Word × Bool × Word)
  | .next t => some (t.cursor, t.outQ, t.codeO)
  | .fault _ => none
  | .refused _ => none

/-- `cursor` and `out_q` of a next state. -/
def pair (o : Host.Outcome State Fault Refusal) : Option (Word × Bool) := (regs o).map fun r => (r.1, r.2.1)

/- ---- WellFormed: an ill-formed term for each check ---- -/

theorem test_idle_is_no_code : codeWellFormed 0x00000000#32 = false := by decide
theorem test_bare_sentinel_is_no_code : codeWellFormed 0x00000001#32 = false := by decide
theorem test_two_is_a_code : codeWellFormed 0x00000002#32 = true := by decide
theorem test_reference_admissible : romAdmissible referenceRom = true := by decide
theorem test_rom_with_bare_sentinel_refused : romAdmissible (referenceRom.set 0 0x00000001#32) = false := by decide
theorem test_rom_other_E_refused : romAdmissible (referenceRom.set 14 0x00000005#32) = false := by decide
theorem test_rom_other_T_refused : romAdmissible (referenceRom.set 29 0x00000005#32) = false := by decide
theorem test_rom_other_S_refused : romAdmissible (referenceRom.set 28 0x00000005#32) = false := by decide
theorem test_rom_other_H_refused : romAdmissible (referenceRom.set 17 0x00000005#32) = false := by decide
theorem test_rom_other_I_refused : romAdmissible (referenceRom.set 18 0x00000005#32) = false := by decide
theorem test_rom_other_five_refused : romAdmissible (referenceRom.set 5 0x00000005#32) = false := by decide
theorem test_rom_four_tick_gap_refused : romAdmissible (referenceRom.set 36 0x00000010#32) = false := by decide
theorem test_load_operand_too_wide : SourceLine.wellFormed (.load 0x100000000) = false := by decide
theorem test_loadc_operand_too_wide : SourceLine.wellFormed (.loadc 0x100) = false := by decide
theorem test_convert_operand_too_wide : SourceLine.wellFormed (.convert 0x100) = false := by decide
theorem test_send_operand_too_wide : SourceLine.wellFormed (.send 0x100) = false := by decide

/- ---- Decoding: words of 95_test_vectors.md section 2.5 ---- -/

theorem test_decode_nop : decodeCommand 0x00000000000#42 = .nop := by decide
theorem test_decode_step : decodeCommand 0x00000000001#42 = .step := by decide
theorem test_decode_step_noncanonical : decodeCommand 0x3FFFFFFFFFD#42 = .step := by decide
theorem test_decode_clear : decodeCommand 0x00000000002#42 = .load 0x00000000#32 := by decide
theorem test_decode_load_35 : decodeCommand 0x0000000D402#42 = .load 0x00000035#32 := by decide
theorem test_decode_load_all_ones : decodeCommand 0x3FFFFFFFC02#42 = .load 0xFFFFFFFF#32 := by decide
theorem test_decode_loadc_space : decodeCommand 0x00000000083#42 = .loadc 0x20#8 := by decide
theorem test_decode_loadc_z : decodeCommand 0x000000001EB#42 = .loadc 0x7A#8 := by decide
theorem test_decode_loadc_FF : decodeCommand 0x000000003FF#42 = .loadc 0xFF#8 := by decide
theorem test_decode_convert_H : decode (.enc8 0x48#8) = .convert 0x48#8 := by decide
theorem test_encode_loadc_E : encode (.loadc 0x45#8) = .cmd42 0x00000000117#42 := by decide
theorem test_encode_load_1 : encode (.load 0x00000001#32) = .cmd42 0x00000000402#42 := by decide
theorem test_bytes_of_loadc_E : decodeBytes [0x17#8, 0x01#8, 0x00#8, 0x00#8, 0x00#8, 0x00#8] = .ok (.loadc 0x45#8) := by
  rfl
theorem test_two_bytes_refused : decodeBytes [0x17#8, 0x01#8] = .error .lengthOfNoFormat := by rfl
theorem test_bit_42_refused :
    decodeBytes [0x01#8, 0x00#8, 0x00#8, 0x00#8, 0x00#8, 0x04#8] = .error .bitsAboveCommandWord := by rfl

/- ---- The table's words, decoded and run first after reset ---- -/

theorem test_table_rows : [decodeTableWord 48 0, decodeTableWord 48 1, decodeTableWord 48 2, decodeTableWord 48 3] =
    [some .nop, some .step, some (.load 0x00000000#32), some (.loadc 0x00#8)] := by decide
theorem test_table_rows_short : [decodeTableWord 8 0, decodeTableWord 8 1, decodeTableWord 8 2, decodeTableWord 8 3] =
    [some .nop, some .step, some (.load 0x00000000#32), some (.loadc 0x00#8)] := by decide
theorem test_table_convert : decodeTableWord 8 0x48 = some (.convert 0x48#8) := by decide
theorem test_first_loadc : pair (step (State.reset.withFetchWord 48 0x117)) = some (0x00000003#32, false) := by decide
theorem test_first_convert : regs (step (State.reset.withFetchWord 8 0x48)) = some (0x00000000#32, false, 0x000000D5#32) := by
  decide

/- ---- Operations: 95_test_vectors.md sections 2.1, 2.2, 2.4 ---- -/

theorem test_nop_holds : pair (exec .nop (mk 0x0000000D#32 true)) = some (0x0000000D#32, true) := by decide
theorem test_step_S_first_tick : pair (exec .step (mk 0x00000035#32 false)) = some (0x0000001A#32, true) := by decide
theorem test_step_zero_fill : pair (exec .step (mk 0xFFFFFFFF#32 false)) = some (0x7FFFFFFF#32, true) := by decide
theorem test_load_keeps_flag : pair (exec (.load 0x00000000#32) (mk 0x0000001A#32 true)) = some (0x00000000#32, true) := by
  decide
theorem test_loadc_mid_character : pair (exec (.loadc 0x49#8) (mk 0x000000D5#32 true)) = some (0x0000000D#32, true) := by
  decide
theorem test_loadc_fallback : pair (exec (.loadc 0xFF#8) (mk 0x00000000#32 false)) = some (0x00000008#32, false) := by decide
theorem test_convert_lower_z : regs (exec (.convert 0x7A#8) (mk 0x000000D5#32 true)) =
    some (0x000000D5#32, true, 0x00000D77#32) := by decide
theorem test_convert_bracket : regs (exec (.convert 0x5B#8) (mk 0x00000001#32 true)) =
    some (0x00000001#32, true, 0x00000008#32) := by decide
theorem test_reset_beats_step : pair (perform (.edge true 0x00000000001#42) (mk 0x00000355#32 true)) =
    some (0x00000000#32, false) := by decide
theorem test_code_o_during_reset : regs (perform (.edge true (commandWord 0#32 0x48#8 0b11#2)) (mk 0x00000000#32 false)) =
    some (0x00000000#32, false, 0x000000D5#32) := by decide
theorem test_classifier_boundaries : [0x2F#8, 0x30#8, 0x39#8, 0x3A#8, 0x40#8, 0x41#8, 0x5A#8, 0x5B#8, 0x60#8, 0x61#8,
    0x7A#8, 0x7B#8, 0xC1#8].map (fun ch => (romIndex ch).val) = [36, 0, 9, 36, 36, 10, 35, 36, 36, 10, 35, 36, 36] := by
  decide
theorem test_ticks : [0x00000000#32, 0x00000001#32, 0x00000002#32, 0x00000003#32, 0x00000010#32, 0xFFFFFFFF#32].map ticks =
    [0, 1, 1, 1, 4, 31] := by decide
theorem test_data_bits_S : dataBits 0x00000035#32 = [true, false, true, false, true] := by decide

/- ---- Assembler (R68, R69) ---- -/

theorem test_blank_line : parseLine [' ', '\t', ';', 'x'] = .ok none := by rfl
theorem test_binary_number : parseLine ['L', 'o', 'a', 'd', ' ', '0', 'b', '1', '0', '1'] = .ok (some (.load 5)) := by rfl
theorem test_missing_operand : parseLine ['L', 'O', 'A', 'D'] = .error .badOperand := by rfl
theorem test_unknown_mnemonic : parseLine ['J', 'M', 'P'] = .error .unknownMnemonic := by rfl
theorem test_gap_expands : expandLine referenceRom .gap =
    [.edge false 0x00000000083#42, .edge false 0x00000000001#42, .edge false 0x00000000001#42,
     .edge false 0x00000000001#42] := by decide

/- ---- The host contract's rows (R135) ---- -/

theorem test_H1_before_first_use : Interaction.allowed .first (mk 3#32 false) .tick = false ∧
    Interaction.allowed .first (mk 3#32 false) .clear = true ∧ Interaction.allowed .clean (mk 3#32 false) .clear = true := by
  decide
theorem test_H3_H6_H8_levels : Interaction.allowed .clean (mk 0#32 false) .tick = false ∧
    Interaction.allowed .clean (mk 0#32 false) .idleStep = true ∧
    Interaction.allowed .clean (mk 0#32 false) (.abandonByLoad 7#32) = false ∧
    Interaction.allowed .clean (mk 3#32 false) (.abandonByLoad 7#32) = true := by decide
theorem test_H6_CLEAR_is_a_liberty : Interaction.abandonByClear.kind = .liberty ∧ Interaction.clear.kind = .duty ∧
    Interaction.allowed .clean (mk 0#32 false) .abandonByClear = false ∧
    Interaction.allowed ⟨true, true⟩ (mk 3#32 false) .abandonByClear = true := by decide
theorem test_H4_before_going_on : Interaction.allowed ⟨true, true⟩ (mk 3#32 false) .tick = false ∧
    Interaction.allowed ⟨true, true⟩ (mk 0#32 false) (.character 0x45#8 false) = false ∧
    Interaction.allowed ⟨true, true⟩ (mk 3#32 false) .idleCycle = true ∧
    Interaction.allowed ⟨true, true⟩ (mk 0#32 false) (.testIdle false) = false := by decide
/-- H7 between a tick and its test (H4): `STEP`, `NOP`, `NOP`, `idle_o` reads 1. -/
theorem test_H7_before_the_test :
    keepsContract .clean [.tick, .idleCycle, .idleCycle, .testIdle true] (mk 2#32 false) := by
  refine ⟨rfl, fun _ _ h => ?_⟩
  cases h
  refine ⟨rfl, fun _ _ h => ?_⟩
  cases h
  refine ⟨rfl, fun _ _ h => ?_⟩
  cases h
  refine ⟨rfl, fun _ _ h => ?_⟩
  cases h
  rfl
theorem test_H2_both_ways : (Interaction.character 0x45#8 false).sends referenceRom = [.edge false 0x00000000117#42] ∧
    (Interaction.character 0x45#8 true).sends referenceRom = [.edge false 0x00000000C02#42] := by decide
theorem test_assembler_takes_no_blank : parseLine ['L', 'O', 'A', 'D', '0', 'x', '3', '5'] = .ok (some (.load 0x35)) := by
  rfl

/- ---- Witnesses: the statements' hypotheses can be met, clause by clause, at boundary values ---- -/

/-- A STEP word with every unused field set. -/
def oddTick : Transaction := .edge false 0x3FFFFFFFFFD#42

theorem witness_ResetWinsOverEveryCommand :
    (State.reset.withPending [.edge true 0x00000000003#42]).pending = .edge true 0x00000000003#42 :: [] ∧
    (State.reset.withPending [.edge false 0x00000000003#42]).pending = .edge false 0x00000000003#42 :: [] := by decide

theorem witness_StepAfterResetChangesNothing : isTick oddTick = true ∧ isTick (issue .step) = true := by decide

theorem witness_StepEmitsBitAndAdvances :
    cmdField 0x3FFFFFFFFFD#42 = 0b01#2 ∧ cmdField 0x00000000001#42 = 0b01#2 ∧
    (mk 0xFFFFFFFF#32 false).cursor = 0xFFFFFFFF#32 ∧ (mk 0x00000000#32 true).cursor = 0x00000000#32 := by decide

theorem witness_IdleStepsEmitNothing : (∀ e ∈ [oddTick, issue .step], isTick e = true) ∧
    (mk 0x00000000#32 true).cursor = 0x00000000#32 ∧ [oddTick, issue .step] ≠ [] := by
  refine ⟨by simp [show isTick oddTick = true by decide, show isTick (issue .step) = true by decide], by decide, by simp⟩

theorem witness_OnlyLoadOfOneMakesSentinelEmitted :
    (mk 1#32 false).cursor = 1#32 ∧ romAdmissible (mk 0#32 false).rom = true ∧ (mk 0#32 false).cursor ≠ 1#32 ∧
    ∃ t, exec (.load 1#32) (mk 0#32 false) = .next t ∧ t.cursor = 1#32 :=
  ⟨rfl, by decide, by decide, _, rfl, rfl⟩

theorem witness_StepShiftIsLogical : 4#32 ≤ (mk 4#32 false).cursor ∧ 4#32 ≤ (mk 0xFFFFFFFF#32 false).cursor := by decide

theorem witness_LoadWritesWholeWord : cmdField 0x3FFFFFFFC02#42 = 0b10#2 ∧ (1#32 : Word) = 1#32 := by decide

theorem witness_LoadcLoadsPackedCode :
    cmdField 0x00000000117#42 = 0b11#2 ∧ romAdmissible State.reset.rom = true ∧ ¬ inThreeRanges 0x40#8 ∧
    0x41 ≤ (0x41#8 : Char8).toNat ∧ (0x5A#8 : Char8).toNat ≤ 0x5A :=
  ⟨by decide, by decide, by unfold inThreeRanges; decide, by decide, by decide⟩

theorem witness_NopChangesNothing : cmdField 0x3FFFFFFFFFC#42 = 0b00#2 := by decide

theorem witness_PlaybackLaw :
    (∀ e ∈ [oddTick], isTick e = true) ∧ 2#32 ≤ (mk 2#32 false).cursor ∧
    [oddTick].length = (mk 2#32 false).cursor.toNat.log2 ∧ 0 < (mk 2#32 false).cursor.toNat.log2 ∧
    2#32 ≤ (mk 0x80000000#32 false).cursor ∧
    (List.replicate 31 oddTick).length = (mk 0x80000000#32 false).cursor.toNat.log2 ∧
    (mk 1#32 false).cursor = 1#32 ∧ [oddTick].length = 1 ∧ (mk 0#32 true).cursor = 0#32 := by
  refine ⟨by simp [show isTick oddTick = true by decide], ?_⟩
  decide

theorem witness_ThirtyOneStepsReachIdle :
    (∀ e ∈ List.replicate 31 oddTick, isTick e = true) ∧ (List.replicate 31 oddTick).length = 31 ∧
    (∀ e ∈ List.replicate 30 oddTick, isTick e = true) ∧ (List.replicate 30 oddTick).length = 30 := by
  have h : isTick oddTick = true := by decide
  refine ⟨fun e he => ?_, List.length_replicate, fun e he => ?_, List.length_replicate⟩ <;>
    rw [List.eq_of_mem_replicate he, h]

theorem witness_StepNeverIncreasesCursor : (mk 1#32 false).cursor ≠ 0#32 ∧ (mk 0#32 false).cursor = 0#32 := by decide

theorem witness_CutoffDiffersFromShift : ∃ t, exec .step (mk 3#32 false) = .next t ∧
    t.cursor ≠ (mk 3#32 false).cursor >>> 1 := ⟨_, rfl, by decide⟩

theorem witness_ClassifierFollowsFourTests :
    (0x30 ≤ (0x30#8 : Char8).toNat ∧ (0x39#8 : Char8).toNat ≤ 0x39) ∧
    (0x41 ≤ (0x41#8 : Char8).toNat ∧ (0x5A#8 : Char8).toNat ≤ 0x5A) ∧
    (0x61 ≤ (0x61#8 : Char8).toNat ∧ (0x7A#8 : Char8).toNat ≤ 0x7A) ∧ ¬ inThreeRanges 0x3A#8 := by
  unfold inThreeRanges; decide

theorem witness_RomIndexMap : 9 < 10 ∧ 25 < 26 := by decide

theorem witness_ConvertShowsRomEntry :
    0x2F#8 ∈ ([0x2F#8, 0x3A#8, 0x40#8, 0x5B#8, 0x60#8, 0x7B#8, 0x00#8, 0x7F#8, 0x20#8] : List Char8) ∧
    0x80 ≤ (0x80#8 : Char8).toNat ∧ 0x41 ≤ (0x5A#8 : Char8).toNat ∧ (0x5A#8 : Char8).toNat ≤ 0x5A ∧
    romAdmissible State.reset.rom = true := by decide

theorem witness_ConvertDependsOnly : (mk 0xFFFFFFFF#32 true).rom = State.reset.rom := rfl

theorem witness_UpperAndLowerCaseAgree : 0x41 ≤ (0x41#8 : Char8).toNat ∧ (0x41#8 : Char8).toNat ≤ 0x5A ∧
    0x41 ≤ (0x5A#8 : Char8).toNat ∧ (0x5A#8 : Char8).toNat ≤ 0x5A := by decide

theorem witness_EveryOtherCharacterIsWordGap : ¬ inThreeRanges 0x60#8 ∧ ¬ inThreeRanges 0xFF#8 := by
  unfold inThreeRanges; decide

theorem witness_LoadedCharacterPlaysToIdle :
    romAdmissible State.reset.rom = true ∧ (∀ e ∈ [oddTick], isTick e = true) ∧
    [oddTick].length = ticks (convert State.reset.rom 0x45#8) := by
  refine ⟨by decide, by simp [show isTick oddTick = true by decide], by decide⟩

theorem witness_NothingWritesTheRom : (∃ t, perform .powerCycle State.reset = .next t) ∧
    ∃ t, step (State.reset.withFetchWord 48 0x117) = .next t := ⟨⟨_, rfl⟩, _, rfl⟩

theorem witness_PlaybackDeterminesTheCode : (2#32 : Word) ≤ 2#32 ∧ (2#32 : Word) ≤ 0x35#32 ∧
    dataBits 2#32 = dataBits 2#32 ∧ romAdmissible referenceRom = true := by decide

theorem witness_PackedBitsAreTheDataBits : (List.replicate 31 true) ≠ [] ∧ (List.replicate 31 true).length ≤ 31 ∧
    [false] ≠ [] ∧ [false].length ≤ 31 := by decide

theorem witness_OnlyFourWriteTheCursor : Transaction.edge false 0x3FFFFFFFC02#42 ≠ .powerCycle ∧
    ∃ t, perform (.edge false 0x3FFFFFFFC02#42) State.reset = .next t ∧ t.cursor ≠ State.reset.cursor :=
  ⟨by decide, _, rfl, by decide⟩

theorem witness_OutputHoldsFlagOfLastStep :
    (∀ e ∈ [issue (.loadc 0x45#8), oddTick, .query 0x20#8], clearsOutput e = false) ∧ Instr.nop ≠ .step ∧
    (∃ t, exec .nop (mk 3#32 true) = .next t) ∧ isTick (issue (.load 7#32)) = false ∧
    ∃ t, perform (issue (.load 7#32)) (mk 3#32 true) = .next t := by
  refine ⟨?_, by decide, ⟨_, rfl⟩, by decide, _, rfl⟩
  simp [oddTick, issue, encode, transactionOf, clearsOutput]

theorem witness_OperationsChangeNothingElse :
    (∃ t, exec (.convert 0x41#8) (mk 3#32 true) = .next t) ∧ (∃ t, exec .step (mk 3#32 true) = .next t) ∧
    (∃ t, perform (.query 0x41#8) (mk 3#32 true) = .next t) ∧ isSilent (.query 0x41#8) = true ∧
    isTick (.query 0x41#8) = false ∧ clearsOutput (.query 0x41#8) = false ∧
    ∃ t, perform .powerCycle (mk 3#32 true) = .next t :=
  ⟨⟨_, rfl⟩, ⟨_, rfl⟩, ⟨_, rfl⟩, rfl, rfl, rfl, _, rfl⟩

theorem witness_StepRunsPresentedInstruction :
    (State.reset.withPending [oddTick]).pending = .edge false 0x3FFFFFFFFFD#42 :: [] ∧
    (State.reset.withPending [.query 0xFF#8]).pending = .query 0xFF#8 :: [] ∧
    presentedOf [0xFF#8] = .ok (.enc8 0xFF#8) ∧ decodeTableWord 48 0x3FFFFFFFFFD = some .step :=
  ⟨rfl, rfl, rfl, by decide⟩

theorem witness_IdleBusHoldsTheState : State.reset.pending = [] := rfl

theorem witness_EveryCommandWordDecodes : cmdField 0x3FFFFFFFC02#42 = cmdField 0x3FFFFFFFFFE#42 ∧
    dataField 0x3FFFFFFFC02#42 = dataField 0x3FFFFFFFFFE#42 ∧ cmdField 0x00000000117#42 = cmdField 0x3FFFFFFFD17#42 ∧
    chField 0x00000000117#42 = chField 0x3FFFFFFFD17#42 ∧ ¬ inThreeRanges 0x20#8 := by
  unfold inThreeRanges; decide

theorem witness_DecodeInvertsEncode : (Instr.loadc 0xFF#8).wellFormed = true ∧
    encodeBytes (.load 0#32) = encodeBytes (.load 0#32) := by decide

theorem witness_OneFlagPerTick : cmdField 0x3FFFFFFFFFF#42 ≠ 0b01#2 ∧ cmdField 0x00000000000#42 ≠ 0b01#2 := by decide

theorem witness_PseudoInstructions : romAdmissible State.reset.rom = true := by decide

theorem witness_LoadDiscardsTheRest : (mk 0x0000001A#32 true).cursor ≠ 0x00000000#32 := by decide

theorem witness_StepKeepsNoBareSentinel :
    NoBareSentinel ((mk 2#32 false).withPending [issue .step, issue (.load 2#32), issue (.loadc 0x45#8)]) ∧
    ∃ t, step ((mk 2#32 false).withPending [issue .step, issue (.load 2#32), issue (.loadc 0x45#8)]) = .next t := by
  refine ⟨⟨by decide, by decide, ?_⟩, _, rfl⟩
  simp only [State.withPending, List.mem_cons, List.not_mem_nil, or_false, forall_eq_or_imp, forall_eq]
  decide

theorem witness_StepKeepsCursorRestOfEntry :
    CursorIsRestOfEntry ((mk 0x0000001A#32 false).withPending [issue .step, issue (.load 0#32), issue (.loadc 0x45#8)]) ∧
    ∃ t, step ((mk 0x0000001A#32 false).withPending [issue .step, issue (.load 0#32), issue (.loadc 0x45#8)]) = .next t := by
  refine ⟨⟨by decide, .inr ⟨28, 1, by decide, by decide⟩, ?_⟩, _, rfl⟩
  simp only [State.withPending, List.mem_cons, List.not_mem_nil, or_false, forall_eq_or_imp, forall_eq]
  decide

theorem witness_SessionEmitsTheMessage : romAdmissible State.reset.rom = true ∧
    messageBits State.reset.rom [0x45#8, 0x54#8] = [true, false, false, false, true, true, true] := by decide

theorem witness_InstancesDoNotInterfere : (0 : Fin 2) ≠ 1 ∧
    (∃ a, performAt 0 .powerCycle (System.reset 2) = .next a) ∧ ∃ a, performAt 1 oddTick (System.reset 2) = .next a :=
  ⟨by decide, ⟨_, rfl⟩, _, rfl⟩

theorem witness_OneRomServesEveryInstance : (0 : Fin 2) ≠ 1 ∧ ((System.reset 2).core 1).rom = referenceRom :=
  ⟨by decide, rfl⟩

theorem witness_ContractRowsGiveBack : romAdmissible (mk 0#32 true).rom = true ∧ (mk 0#32 true).idleO = true ∧
    romAdmissible (mk 3#32 true).rom = true ∧ (mk 3#32 true).idleO = false ∧ (mk 4#32 true).idleO = false := by decide

/-- The clause on a host that owes the test; `test_H7_before_the_test` meets the clause on a tick. -/
theorem witness_TickIsTestedOrCharacterGivenUp : Standing.owesTest ⟨true, true⟩ = true ∧
    keepsContract ⟨true, true⟩ [.idleCycle, .testIdle true] (mk 0#32 false) := by
  refine ⟨rfl, rfl, fun _ _ h => ?_⟩
  cases h
  refine ⟨rfl, fun _ _ h => ?_⟩
  cases h
  rfl

/-- The other ways out: the character is given up. -/
theorem witness_TickIsTestedOrCharacterGivenUp_given_up : keepsContract ⟨true, true⟩ [.abandonByClear] (mk 3#32 false) ∧
    keepsContract ⟨true, true⟩ [.abandonByLoad 7#32] (mk 3#32 false) ∧
    keepsContract ⟨true, true⟩ [.abandonByLoadc 0x45#8] (mk 3#32 false) ∧
    keepsContract ⟨true, true⟩ [.clear] (mk 3#32 false) ∧ keepsContract ⟨true, true⟩ [.reset] (mk 3#32 false) := by
  refine ⟨?_, ?_, ?_, ?_, ?_⟩ <;> exact ⟨rfl, fun _ _ h => by cases h; rfl⟩

end Sys2Proof.Tests
end

section
/-! What the host presents is carried along and never read: an operation and a transaction act the same whatever is pending,
so a run of the machine on a presented list is that list applied (R9, R55, R141). -/

namespace Sys2Proof.Machine

/-- An operation neither reads nor changes what is pending. -/
theorem exec_withPending {i : Instr} {s t : State} (h : exec i s = .next t) (es : List Transaction) :
    exec i (s.withPending es) = .next (t.withPending es) := by
  cases i <;> cases h <;> rfl

/-- A transaction neither reads nor changes what is pending. -/
theorem perform_withPending {e : Transaction} {s t : State} (h : perform e s = .next t) (es : List Transaction) :
    perform e (s.withPending es) = .next (t.withPending es) := by
  match e with
  | .edge true cw => cases h; rfl
  | .edge false cw => exact exec_withPending (s := s.driveCh (chField cw)) h es
  | .query ch => cases h; rfl
  | .powerCycle => cases h; rfl

/-- A step takes the first transaction presented and leaves those after it presented. -/
theorem step_withPending_cons {e : Transaction} {s t : State} (h : perform e s = .next t) (es : List Transaction) :
    step (s.withPending (e :: es)) = .next (t.withPending es) :=
  (step_of_pending rfl).trans (perform_withPending h es)

/-- A run whose first step answers `t` goes on from `t`. -/
theorem run_succ_of_step {s t : State} (h : step s = .next t) (n : Nat) :
    Host.Core.run Sys2Proof.core (n + 1) s = Host.Core.run Sys2Proof.core n t := by
  have h' : Sys2Proof.core.step s = .next t := h
  simp [Host.Core.run, h']

/-- Settles O43, by induction on the transactions presented: the machine's step on the first of them and the first
transaction of the run reach the same state but for what is pending. -/
theorem runningIsObserving : Obligations.RunningIsObserving := by
  unfold Obligations.RunningIsObserving
  intro es rest
  induction es with
  | nil => exact fun s => ⟨s.withPending rest, [], rfl, rfl, rfl⟩
  | cons e es ih =>
    intro s
    obtain ⟨s', hp, -, -, -⟩ := perform_next e s
    obtain ⟨t, flags, hobserve, hpending, hrun⟩ := ih s'
    have hstep : step (s.withPending (e :: (es ++ rest))) = .next (s'.withPending (es ++ rest)) :=
      step_withPending_cons hp (es ++ rest)
    exact ⟨t, _, observe_cons (perform_withPending hp rest) hobserve, hpending,
      (run_succ_of_step hstep es.length).trans hrun⟩

end Sys2Proof.Machine
end

section
/-! Who writes what (10_state.md R20-R24, R29, R30): the frame of an operation and of a transaction, one lemma per field,
and `out_q` along a run. -/

namespace Sys2Proof.Machine

/- ---- Which command words are ticks, and which are silent ---- -/

/-- A command edge is a tick exactly when its word decodes to STEP (R61, R70). -/
theorem isTick_command_iff (cw : CommandWord) : isTick (.edge false cw) = true ↔ decodeCommand cw = .step := by
  rcases decodeCommand_cases cw with ⟨hc, hd⟩ | ⟨hc, hd⟩ | ⟨hc, hd⟩ | ⟨hc, hd⟩ <;> simp [isTick, hc, hd]

/-- A command edge is silent exactly when its word decodes to NOP (R61, R96). -/
theorem isSilent_command_iff (cw : CommandWord) : isSilent (.edge false cw) = true ↔ decodeCommand cw = .nop := by
  rcases decodeCommand_cases cw with ⟨hc, hd⟩ | ⟨hc, hd⟩ | ⟨hc, hd⟩ | ⟨hc, hd⟩ <;> simp [isSilent, hc, hd]

theorem decodeCommand_ne_step {cw : CommandWord} (h : isTick (.edge false cw) = false) : decodeCommand cw ≠ .step :=
  fun hd => Bool.false_ne_true (h.symm.trans ((isTick_command_iff cw).2 hd))

/-- Only a tick returns a flag (R70). -/
theorem returned_of_not_tick {e : Transaction} (h : isTick e = false) (s : State) : returned e s = [] := by
  match e with
  | .edge true _ | .query _ | .powerCycle => rfl
  | .edge false cw =>
    rcases decodeCommand_cases cw with ⟨-, hd⟩ | ⟨-, hd⟩ | ⟨-, hd⟩ | ⟨-, hd⟩
    · simp [returned, hd]
    · exact absurd hd (decodeCommand_ne_step h)
    · simp [returned, hd]
    · simp [returned, hd]

/- ---- The frame of an operation ---- -/

section Operation

variable {i : Instr} {s t : State}

/-- No operation writes the ROM (R43), the host's list, the counter or the source of free values. -/
theorem exec_frame (h : exec i s = .next t) :
    t.rom = s.rom ∧ t.pending = s.pending ∧ t.draws = s.draws ∧ t.drawSource = s.drawSource := by
  cases i <;> cases h <;> exact ⟨rfl, rfl, rfl, rfl⟩

/-- Of the operations only STEP writes `out_q` (R24). -/
theorem exec_outQ_of_ne_step (hi : i ≠ .step) (h : exec i s = .next t) : t.outQ = s.outQ := by
  cases i with
  | step => exact absurd rfl hi
  | nop | load _ | loadc _ | convert _ => cases h; rfl

/-- NOP and CONVERT leave the cursor (R22, R96). -/
theorem exec_cursor_of_nop_or_convert (hi : i = .nop ∨ ∃ ch, i = .convert ch) (h : exec i s = .next t) :
    t.cursor = s.cursor := by
  rcases hi with rfl | ⟨ch, rfl⟩ <;> cases h <;> rfl

/-- NOP, STEP and LOAD do not drive `ch_i` (log 5). -/
theorem exec_chI_of_no_character (hi : i = .nop ∨ i = .step ∨ ∃ data, i = .load data) (h : exec i s = .next t) :
    t.chI = s.chI := by
  rcases hi with rfl | rfl | ⟨data, rfl⟩ <;> cases h <;> rfl

end Operation

/- ---- The frame of a transaction ---- -/

section Transact

variable {e : Transaction} {s t : State}

/-- No transaction writes the ROM, the host's list or the source of free values (R43, R110). -/
theorem perform_frame (h : perform e s = .next t) :
    t.rom = s.rom ∧ t.pending = s.pending ∧ t.drawSource = s.drawSource := by
  obtain ⟨u, hu, hframe⟩ := perform_next e s
  rw [h, Host.Outcome.next.injEq] at hu
  exact hu ▸ hframe

/-- Only the return of power advances the counter of free values (log 6). -/
theorem perform_draws (he : e ≠ .powerCycle) (h : perform e s = .next t) : t.draws = s.draws := by
  match e with
  | .edge true cw => cases h; rfl
  | .edge false cw =>
    obtain ⟨-, -, hdraws, -⟩ := exec_frame (s := s.driveCh (chField cw)) h
    exact hdraws
  | .query ch => cases h; rfl
  | .powerCycle => exact absurd rfl he

/-- Only a tick, a reset edge and a loss of power write `out_q` (R24). -/
theorem perform_outQ_of_not_tick (ht : isTick e = false) (hc : clearsOutput e = false) (h : perform e s = .next t) :
    t.outQ = s.outQ := by
  match e with
  | .edge true cw => cases hc
  | .edge false cw => exact exec_outQ_of_ne_step (s := s.driveCh (chField cw)) (decodeCommand_ne_step ht) h
  | .query ch => cases h; rfl
  | .powerCycle => cases hc

/-- A NOP cycle and a query only drive `ch_i` (R81, R96). -/
theorem perform_registers_of_silent (hs : isSilent e = true) (h : perform e s = .next t) :
    t.cursor = s.cursor ∧ t.outQ = s.outQ := by
  match e with
  | .edge true cw => cases hs
  | .edge false cw =>
    rw [perform_command_eq, (isSilent_command_iff cw).1 hs] at h
    cases h
    exact ⟨rfl, rfl⟩
  | .query ch => cases h; exact ⟨rfl, rfl⟩
  | .powerCycle => cases hs

/-- At a clock edge `ch_i` carries the character field, whatever the command (R60). -/
theorem perform_edge_chI {rst : Bool} {cw : CommandWord} (h : perform (.edge rst cw) s = .next t) :
    t.chI = chField cw := by
  cases rst with
  | true => cases h; rfl
  | false =>
    rw [perform_command_eq] at h
    rcases decodeCommand_cases cw with ⟨-, hd⟩ | ⟨-, hd⟩ | ⟨-, hd⟩ | ⟨-, hd⟩ <;> rw [hd] at h <;> cases h <;> rfl

/-- Short of a reset or a loss of power, `out_q` takes the flag a transaction returns, and is held where none is (R24). -/
theorem perform_outQ_eq_returned (hc : clearsOutput e = false) (h : perform e s = .next t) :
    t.outQ = (returned e s).getLast?.getD s.outQ := by
  cases ht : isTick e with
  | true =>
    obtain ⟨hflag, u, hu, -, hout, -⟩ := perform_tick ht s
    rw [h, Host.Outcome.next.injEq] at hu
    rw [hflag, hu, hout]
    rfl
  | false =>
    rw [returned_of_not_tick ht s, perform_outQ_of_not_tick ht hc h]
    rfl

end Transact

/-- Along a run without reset or loss of power, `out_q` is the last flag returned, or what it was before the run if none
was (R24). -/
theorem observe_outQ (es : List Transaction) (s : State) (hes : ∀ e ∈ es, clearsOutput e = false) :
    ∃ t flags, observe es s = .next (t, flags) ∧ t.outQ = flags.getLast?.getD s.outQ := by
  induction es generalizing s with
  | nil => exact ⟨s, [], rfl, rfl⟩
  | cons e es ih =>
    obtain ⟨hclears, hrest⟩ := List.forall_mem_cons.1 hes
    obtain ⟨s', hp, -⟩ := perform_next e s
    obtain ⟨t, flags, ho, hout⟩ := ih s' hrest
    refine ⟨t, returned e s ++ flags, observe_cons hp ho, ?_⟩
    rw [hout, perform_outQ_eq_returned hclears hp, List.getLast?_append, Option.getD_or]

/- ---- The state right after reset, and what `idle_o` shows ---- -/

/-- `idle_o` tests the cursor for 0 (R23). -/
theorem State.idleO_eq_decide (s : State) : s.idleO = decide (s.cursor = 0x00000000#32) :=
  Bool.eq_iff_iff.2 <| (isIdle_iff s.cursor).trans decide_eq_true_iff.symm

/-- The default table is an admissible ROM (R45, R47, R48; log 2). -/
theorem romAdmissible_referenceRom : romAdmissible referenceRom = true := by decide

/- ---- The obligations ---- -/

/-- Settles O28: a transaction that is no edge with reset, STEP, LOAD or LOADC is silent or a loss of power. -/
theorem onlyFourWriteTheCursor : Obligations.OnlyFourWriteTheCursor := by
  unfold Obligations.OnlyFourWriteTheCursor
  refine ⟨fun e s t hpower h hcursor => ?_, fun ch s c => ⟨_, _, rfl, rfl, rfl, rfl, rfl, rfl⟩⟩
  have hloud : isSilent e ≠ true := fun hs => hcursor (perform_registers_of_silent hs h).1
  match e with
  | .edge true cw => exact ⟨true, cw, rfl, .inl rfl⟩
  | .edge false cw =>
    refine ⟨false, cw, rfl, .inr ?_⟩
    rcases decodeCommand_cases cw with ⟨-, hd⟩ | ⟨-, hd⟩ | ⟨-, hd⟩ | ⟨-, hd⟩
    · exact absurd ((isSilent_command_iff cw).2 hd) hloud
    · exact .inl hd
    · exact .inr (.inl ⟨_, hd⟩)
    · exact .inr (.inr ⟨_, hd⟩)
  | .query ch => exact absurd rfl hloud
  | .powerCycle => exact absurd rfl hpower

/-- Settles O30: the reset edge returns no flag and clears `out_q`, and `observe_outQ` follows it from there. -/
theorem outputHoldsFlagOfLastStep : Obligations.OutputHoldsFlagOfLastStep := by
  unfold Obligations.OutputHoldsFlagOfLastStep
  refine ⟨fun cw es s hes => ?_, fun i s t => exec_outQ_of_ne_step, fun s => ⟨_, exec_step_eq s, rfl⟩,
    fun e s t hc ht => perform_outQ_of_not_tick ht hc⟩
  obtain ⟨t, flags, ho, hout⟩ := observe_outQ es (resetEdge (s.driveCh (chField cw))) hes
  exact ⟨t, flags, observe_cons (perform_reset_eq s cw) ho, hout, t.flagO_eq⟩

/-- Settles O31, field by field from the frame lemmas. -/
theorem operationsChangeNothingElse : Obligations.OperationsChangeNothingElse := by
  unfold Obligations.OperationsChangeNothingElse
  constructor
  · intro i s t h
    obtain ⟨hrom, hpending, hdraws, hsource⟩ := exec_frame h
    exact ⟨fun idx => by rw [hrom], hrom, hpending, hdraws, hsource, fun hi => exec_outQ_of_ne_step hi h,
      fun hi => exec_cursor_of_nop_or_convert hi h, fun hi => exec_chI_of_no_character hi h⟩
  · intro e s t h
    obtain ⟨hrom, hpending, hsource⟩ := perform_frame h
    refine ⟨fun idx => by rw [hrom], hrom, hpending, fun he => perform_draws he h, hsource,
      fun ht hc => perform_outQ_of_not_tick ht hc h, fun hs => perform_registers_of_silent hs h, ?_, ?_, ?_⟩
    · rintro rst cw rfl
      exact perform_edge_chI h
    · rintro ch rfl
      cases h
      rfl
    · rintro rfl
      cases h
      rfl

/-- Settles O1, from the values of the registers at reset. -/
theorem resetStateIsIdleAndOff : Obligations.ResetStateIsIdleAndOff := by
  unfold Obligations.ResetStateIsIdleAndOff
  have hidle : State.reset.idleO = true := (isIdle_iff _).2 State.reset_cursor
  exact ⟨State.reset_cursor, State.reset_outQ, hidle, State.reset_outQ, State.reset_rom⟩

/-- Settles O29: `cursor_o` is the register, and `idle_o` tests it in every state, the ones the operations answer among
them. -/
theorem outputsShowTheRegisters : Obligations.OutputsShowTheRegisters := by
  unfold Obligations.OutputsShowTheRegisters
  exact ⟨fun s => ⟨s.cursorO_eq, s.idleO_eq_decide⟩,
    fun s => ⟨_, exec_step_eq s, rfl, State.idleO_eq_decide _⟩,
    fun data s => ⟨_, exec_load_eq s data, rfl, State.idleO_eq_decide _⟩,
    fun ch s => ⟨_, exec_loadc_eq s ch, rfl, State.idleO_eq_decide _⟩⟩

/-- Settles O46: the default table is admissible, the cursor is 0 and nothing is presented. -/
theorem resetMeetsBothInvariants : Obligations.ResetMeetsBothInvariants := by
  unfold Obligations.ResetMeetsBothInvariants
  refine ⟨⟨romAdmissible_referenceRom, ?_, ?_⟩, romAdmissible_referenceRom, .inl State.reset_cursor, ?_⟩
  · rw [State.reset_cursor]
    decide
  · simp
  · simp

end Sys2Proof.Machine
end

section
/-! Packed codes (20_memory.md R44-R46): the data bits of a word taken one at a time, that packing is the inverse of reading
them, and that a run of ticks plays them (R84). -/

namespace Sys2Proof.Machine

/- ---- The data bits of a word, one at a time ---- -/

theorem ushiftRight_one_toNat (c : Word) : (c >>> 1).toNat = c.toNat / 2 := by
  rw [BitVec.toNat_ushiftRight, Nat.shiftRight_eq_div_pow, pow_one]

/-- Idle and the bare sentinel have no data bits (R44). -/
theorem dataBits_of_lt_two {c : Word} (h : c.toNat < 2) : dataBits c = [] := by
  have hlog : c.toNat.log2 = 0 := by interval_cases c.toNat <;> rfl
  rw [dataBits, hlog]
  rfl

/-- A well-formed code has its lowest bit first, and after it the data bits of what is above that bit (R44, R45). -/
theorem dataBits_of_two_le {c : Word} (h : 2 ≤ c.toNat) : dataBits c = emittedFlag c :: dataBits (c >>> 1) := by
  have hlog : c.toNat.log2 = (c >>> 1).toNat.log2 + 1 := by
    rw [ushiftRight_one_toNat, Nat.log2_def, if_pos h]
  have hbit : ∀ j, (c >>> 1).getLsbD j = c.getLsbD (j + 1) := fun j => by
    rw [BitVec.getLsbD_ushiftRight, Nat.add_comm]
  simp only [dataBits, hlog, List.range_succ_eq_map, List.map_cons, List.map_map, Function.comp_def, hbit, emittedFlag]

/-- The cutoff of STEP loses no data bit: it differs from the shift only where no data bit is left (R90, R100). -/
theorem dataBits_advance (c : Word) : dataBits (advance c) = dataBits (c >>> 1) := by
  rcases Nat.lt_or_ge c.toNat 4 with h | h
  · have hshift : (c >>> 1).toNat < 2 := by rw [ushiftRight_one_toNat]; omega
    rw [advance_of_lt h, dataBits_of_lt_two hshift]
    rfl
  · rw [advance_of_ge h]

/-- A well-formed code takes one STEP for each data bit (R45, R97). -/
theorem ticks_of_two_le {c : Word} (h : 2 ≤ c.toNat) : ticks c = (dataBits c).length := by
  have h0 : c ≠ 0#32 := by rintro rfl; simp at h
  have h1 : c ≠ 1#32 := by rintro rfl; simp at h
  simp [ticks, dataBits, h0, h1]

/- ---- Packing and reading are inverse ---- -/

/-- A word above idle is what its data bits pack to (R44, R46). -/
theorem packNat_dataBits {c : Word} (h : 1 ≤ c.toNat) : packNat (dataBits c) = c.toNat := by
  induction hbits : dataBits c generalizing c with
  | nil =>
    rcases Nat.lt_or_ge c.toNat 2 with h2 | h2
    · rw [packNat]; omega
    · rw [dataBits_of_two_le h2] at hbits; cases hbits
  | cons b bs ih =>
    rcases Nat.lt_or_ge c.toNat 2 with h2 | h2
    · rw [dataBits_of_lt_two h2] at hbits; cases hbits
    · have hshift := ushiftRight_one_toNat c
      rw [dataBits_of_two_le h2, List.cons.injEq] at hbits
      obtain ⟨rfl, hrest⟩ := hbits
      rw [packNat, ih (by omega) hrest, hshift, emittedFlag_eq]
      rcases Nat.mod_two_eq_zero_or_one c.toNat with hmod | hmod <;> simp [hmod] <;> omega

/-- Well-formed codes with the same data bits are the same word (R45). -/
theorem dataBits_injective {v w : Word} (hv : 1 ≤ v.toNat) (hw : 1 ≤ w.toNat) (h : dataBits v = dataBits w) : v = w :=
  BitVec.eq_of_toNat_eq <| by rw [← packNat_dataBits hv, ← packNat_dataBits hw, h]

/-- Up to 31 data bits and the sentinel fit into a word (R46). -/
theorem packBits_toNat {bits : List Bool} (h : bits.length ≤ 31) : (packBits bits).toNat = packNat bits := by
  have hfit : packNat bits < 2 ^ 32 :=
    (packNat_bounds bits).2.trans_le (Nat.pow_le_pow_right two_pos (by omega))
  rw [packBits, BitVec.toNat_ofNat, Nat.mod_eq_of_lt hfit]

/-- A word packed from at least one data bit is at least 2 (R45, R46). -/
theorem two_le_packBits {bits : List Bool} (hne : bits ≠ []) (h : bits.length ≤ 31) : 2 ≤ (packBits bits).toNat := by
  have hpow : 2 ^ 1 ≤ 2 ^ bits.length := Nat.pow_le_pow_right two_pos (List.length_pos_iff.2 hne)
  rw [packBits_toNat h]
  exact hpow.trans (packNat_bounds bits).1

/-- The lowest bit of a packed word is its first data bit (R44, R46). -/
theorem emittedFlag_packBits_cons {b : Bool} {bs : List Bool} (h : (b :: bs).length ≤ 31) :
    emittedFlag (packBits (b :: bs)) = b := by
  rw [emittedFlag_eq, packBits_toNat h, packNat]
  cases b <;> simp

/-- Above its lowest bit a packed word is the word packed from the other data bits (R44, R46). -/
theorem packBits_cons_ushiftRight {b : Bool} {bs : List Bool} (h : (b :: bs).length ≤ 31) :
    packBits (b :: bs) >>> 1 = packBits bs := by
  apply BitVec.eq_of_toNat_eq
  rw [ushiftRight_one_toNat, packBits_toNat h, packBits_toNat (Nat.le_of_succ_le h), packNat]
  have := Bool.toNat_le b
  omega

/-- The data bits of a packed word are those it was packed from (R44, R46). -/
theorem dataBits_packBits {bits : List Bool} (h : bits.length ≤ 31) : dataBits (packBits bits) = bits := by
  induction bits with
  | nil => rfl
  | cons b bs ih =>
    rw [dataBits_of_two_le (two_le_packBits (List.cons_ne_nil b bs) h), emittedFlag_packBits_cons h,
      packBits_cons_ushiftRight h, ih (Nat.le_of_succ_le h)]

/-- The packed value as the sum of R46. -/
theorem packNat_eq_sum (bits : List Bool) :
    packNat bits = ((List.range bits.length).map fun i => (bits.getD i false).toNat * 2 ^ i).sum + 2 ^ bits.length := by
  induction bits with
  | nil => rfl
  | cons b bs ih =>
    have hshift : ∀ i, (bs.getD i false).toNat * 2 ^ (i + 1) = 2 * ((bs.getD i false).toNat * 2 ^ i) :=
      fun i => by ring
    simp only [packNat, ih, List.length_cons, List.range_succ_eq_map, List.map_cons, List.map_map, Function.comp_def,
      List.sum_cons, List.getD_cons_zero, List.getD_cons_succ, hshift, List.sum_map_mul_left, pow_zero, mul_one]
    ring

/- ---- A run of ticks plays the data bits ---- -/

/-- From any cursor but the bare sentinel, as many STEPs as there are data bits return those and reach idle (R84, R97). -/
theorem runFlags_runCursor_dataBits {c : Word} (h : c ≠ 1#32) :
    runFlags (dataBits c).length c = dataBits c ∧ runCursor (dataBits c).length c = 0#32 := by
  induction hbits : dataBits c generalizing c with
  | nil =>
    rcases Nat.lt_or_ge c.toNat 2 with h2 | h2
    · exact ⟨rfl, show c = 0#32 by bv_omega⟩
    · rw [dataBits_of_two_le h2] at hbits; cases hbits
  | cons b bs ih =>
    rcases Nat.lt_or_ge c.toNat 2 with h2 | h2
    · rw [dataBits_of_lt_two h2] at hbits; cases hbits
    · rw [dataBits_of_two_le h2, ← dataBits_advance, List.cons.injEq] at hbits
      obtain ⟨rfl, hrest⟩ := hbits
      obtain ⟨hflags, hcursor⟩ := ih (advance_ne_one c) hrest
      exact ⟨congrArg (emittedFlag c :: ·) hflags, hcursor⟩

/-- A run of as many ticks as the cursor, a well-formed code, has data bits returns those and ends idle (R84, R97). -/
theorem observe_ticks_dataBits {es : List Transaction} {s : State} (hes : ∀ e ∈ es, isTick e = true)
    (hcode : 2 ≤ s.cursor.toNat) (hlen : es.length = ticks s.cursor) :
    ∃ t, observe es s = .next (t, dataBits s.cursor) ∧ t.cursor = 0#32 := by
  have hone : s.cursor ≠ 1#32 := by bv_omega
  obtain ⟨hflags, hidle⟩ := runFlags_runCursor_dataBits hone
  obtain ⟨t, ho, hcursor, -⟩ := observe_ticks es s hes
  rw [hlen, ticks_of_two_le hcode] at ho hcursor
  exact ⟨t, hflags ▸ ho, hcursor.trans hidle⟩

/- ---- The obligations ---- -/

/-- Settles O26, from the lemmas on packed words. -/
theorem packedBitsAreTheDataBits : Obligations.PackedBitsAreTheDataBits := by
  unfold Obligations.PackedBitsAreTheDataBits
  intro bits hne hlen
  have hcode := two_le_packBits hne hlen
  have hbits := dataBits_packBits hlen
  refine ⟨(codeWellFormed_iff _).2 hcode, ?_, hbits, ?_⟩
  · rw [ticks_of_two_le hcode, hbits]
  · rw [packBits_toNat hlen, packNat_eq_sum]

end Sys2Proof.Machine
end

section
/-! The contents of the ROM (20_memory.md R41, R43, R47-R49): nothing writes it, the index map reaches all of it, the entries
the source pins play as the source says, and a loaded entry plays to idle. -/

namespace Sys2Proof.Machine

/- ---- Nothing writes the ROM ---- -/

/-- A step always answers a next state; like a transaction it neither writes the ROM nor moves the source of free values
(R43, R110). -/
theorem step_next (s : State) : ∃ t, step s = .next t ∧ t.rom = s.rom ∧ t.drawSource = s.drawSource := by
  rcases step_cases s with ⟨-, hstep⟩ | ⟨e, rest, -, hstep⟩
  · exact ⟨s, hstep, rfl, rfl⟩
  · obtain ⟨t, hp, hrom, -, hsource⟩ := perform_next e (s.withPending rest)
    exact ⟨t, hstep.trans hp, hrom, hsource⟩

/-- A run always answers a final state, with the ROM of its start (R43, R110). -/
theorem observe_next (es : List Transaction) (s : State) :
    ∃ t flags, observe es s = .next (t, flags) ∧ t.rom = s.rom := by
  induction es generalizing s with
  | nil => exact ⟨s, [], rfl, rfl⟩
  | cons e es ih =>
    obtain ⟨s', hp, hrom, -⟩ := perform_next e s
    obtain ⟨t, flags, ho, hrest⟩ := ih s'
    exact ⟨t, _, observe_cons hp ho, hrest.trans hrom⟩

/- ---- The entries the source pins ---- -/

/-- The entries of an admissible ROM that the source settles: 'E', 'T', 'S', 'H', 'I' and '5' (R48); the word gap is
`romRead_wordGap`. -/
theorem romRead_pinned {rom : RomTable} (h : romAdmissible rom = true) :
    romRead rom 14 = 0x00000003#32 ∧ romRead rom 29 = 0x0000000F#32 ∧ romRead rom 28 = 0x00000035#32 ∧
    romRead rom 17 = 0x000000D5#32 ∧ romRead rom 18 = 0x0000000D#32 ∧ romRead rom 5 = 0x00000355#32 := by
  simp only [romAdmissible, Bool.and_eq_true, beq_iff_eq] at h
  obtain ⟨⟨⟨⟨⟨⟨⟨-, hE⟩, hT⟩, hS⟩, hH⟩, hI⟩, hFive⟩, -⟩ := h
  exact ⟨hE, hT, hS, hH, hI, hFive⟩

/- ---- The default table (R49; log 2) ---- -/

/-- No entry of the default table lies outside 3 to 0xF7777 (R49). -/
theorem romRead_referenceRom_bounds : ∀ idx : Fin Config.romDepth,
    0x00000003#32 ≤ romRead referenceRom idx ∧ romRead referenceRom idx ≤ 0x000F7777#32 := by decide

/-- A word of at most 0xF7777 has no bit above bit 19. -/
theorem extractLsb'_20_12_of_le {v : Word} (h : v ≤ 0x000F7777#32) : v.extractLsb' 20 12 = 0#12 := by
  have hle : v.toNat ≤ 0xF7777 := by simpa [BitVec.le_def] using h
  apply BitVec.eq_of_toNat_eq
  rw [BitVec.extractLsb'_toNat, Nat.shiftRight_eq_div_pow, Nat.div_eq_of_lt (by omega)]
  rfl

/- ---- The obligations ---- -/

/-- Settles O24, from what one transaction, one step and one run leave alone. -/
theorem nothingWritesTheRom : Obligations.NothingWritesTheRom := by
  unfold Obligations.NothingWritesTheRom
  refine ⟨fun e s t h idx => ?_, fun s t h => ?_, observe_next⟩
  · obtain ⟨hrom, -⟩ := perform_frame h
    rw [hrom]
  · obtain ⟨u, hu, hrom, -⟩ := step_next s
    rw [h, Host.Outcome.next.injEq] at hu
    exact hu ▸ hrom

/-- Settles O25: a word above idle is what its data bits pack to, and the pinned words are read bit by bit. -/
theorem playbackDeterminesTheCode : Obligations.PlaybackDeterminesTheCode := by
  unfold Obligations.PlaybackDeterminesTheCode
  refine ⟨fun v w hv hw => dataBits_injective (by bv_omega) (by bv_omega), fun rom h => ?_⟩
  obtain ⟨hE, hT, hS, hH, hI, hFive⟩ := romRead_pinned h
  have hGap := romRead_wordGap h
  simp only [List.forall_mem_cons, List.not_mem_nil, false_imp_iff, implies_true, and_true, hE, hT, hS, hH, hI, hFive,
    hGap]
  decide

/-- Settles O23: the loaded cursor is a well-formed code, and a run of ticks plays its data bits. -/
theorem loadedCharacterPlaysToIdle : Obligations.LoadedCharacterPlaysToIdle := by
  unfold Obligations.LoadedCharacterPlaysToIdle
  refine ⟨fun ch s es hrom hes hlen => ?_, fun ch => ?_⟩
  · have hcode : 2 ≤ (convert s.rom ch).toNat := two_le_convert hrom ch
    obtain ⟨t, hplay, hidle⟩ :=
      observe_ticks_dataBits (s := (s.driveCh ch).writeCursor (convert s.rom ch)) hes hcode hlen
    refine ⟨⟨romIndex ch, rfl⟩, (codeWellFormed_iff _).2 hcode, _, t, exec_loadc_eq s ch, ?_, hplay, hidle⟩
    rw [State.idleO_eq_decide]
    exact decide_eq_false fun h0 : convert s.rom ch = 0#32 => by simp [h0] at hcode
  · obtain ⟨hlow, hhigh⟩ := romRead_referenceRom_bounds (romIndex ch)
    exact ⟨hlow, hhigh, extractLsb'_20_12_of_le hhigh⟩

/-- Settles O18: the map on the digits and on the letters, evaluated; an index below 10, below 36 or 36 is then that of its
digit, its letter or the space. -/
theorem romIndexMapCoversTheRom : Obligations.RomIndexMapCoversTheRom := by
  unfold Obligations.RomIndexMapCoversTheRom
  have hdigit : ∀ d < 10, (romIndex (BitVec.ofNat 8 (0x30 + d))).val = d := by decide
  have hletter : ∀ p < 26, (romIndex (BitVec.ofNat 8 (0x41 + p))).val = 10 + p ∧
      (romIndex (BitVec.ofNat 8 (0x61 + p))).val = 10 + p := by decide
  have hspace : romIndex 0x20#8 = 36 := by decide
  refine ⟨hdigit, hletter, hspace, fun idx => ?_⟩
  rcases Nat.lt_or_ge idx.val 10 with hlow | hlow
  · exact ⟨_, Fin.ext (hdigit idx.val hlow)⟩
  rcases Nat.lt_or_ge idx.val 36 with hmid | hmid
  · obtain ⟨hupper, -⟩ := hletter (idx.val - 10) (by omega)
    exact ⟨_, Fin.ext (hupper.trans (by omega))⟩
  · exact ⟨0x20#8, hspace.trans (Fin.ext (Nat.le_antisymm hmid (Nat.le_of_lt_succ idx.isLt)))⟩

/-- Settles O27, by evaluation of the 37 entries. -/
theorem referenceTableIsPackedMorse : Obligations.ReferenceTableIsPackedMorse := by
  unfold Obligations.ReferenceTableIsPackedMorse
  refine ⟨romAdmissible_referenceRom, ?packed, ?ticks, ?distinct, fun idx => (romRead_referenceRom_bounds idx).2, ?lowest⟩
  case packed => decide
  case ticks => decide
  case distinct => decide
  case lowest => decide

end Sys2Proof.Machine
end

section
/-! Several instances on one ROM (20_memory.md R55, R59, 60_exceptions.md R120): what one of them does is what a CORE alone
does, and any interleaving of their transactions is, for each of them, its own transactions alone. -/

namespace Sys2Proof.Machine

variable {n : Nat}

/-- The system became `a` by an act of its CORE `k`: that CORE became what the act makes of it alone, the shared table and
every other CORE are as they were (R59, R120). -/
structure ActedAt (k : Fin n) (act : State → Host.Outcome State Fault Refusal) (sys a : System n) : Prop where
  rom : a.rom = sys.rom
  self : act (sys.core k) = .next (a.core k)
  other : ∀ m, m ≠ k → a.core m = sys.core m

/- ---- A system is its table and its instances ---- -/

theorem System.ext_core {a b : System n} (hrom : a.rom = b.rom) (hcore : ∀ k, a.core k = b.core k) : a = b := by
  obtain ⟨rom, ms⟩ := a
  obtain ⟨rom', ms'⟩ := b
  obtain rfl : rom = rom' := hrom
  obtain rfl : ms = ms' := Vector.ext fun i hi => congrArg State.member (hcore ⟨i, hi⟩)
  rfl

/- ---- One CORE acts ---- -/

/-- An act that answers a next state with the same ROM and source of free values is an act of that CORE alone. -/
theorem onCore_actedAt {k : Fin n} {act : State → Host.Outcome State Fault Refusal} {sys : System n}
    (h : ∃ t, act (sys.core k) = .next t ∧ t.rom = (sys.core k).rom ∧ t.drawSource = (sys.core k).drawSource) :
    ∃ a, onCore k act sys = .next a ∧ ActedAt k act sys a := by
  obtain ⟨t, hact, hrom, hsource⟩ := h
  obtain ⟨hon, hself, hother⟩ := onCore_next sys k hact hrom hsource
  exact ⟨_, hon, rfl, hact.trans (congrArg _ hself.symm), hother⟩

theorem performAt_next (k : Fin n) (e : Transaction) (sys : System n) :
    ∃ a, performAt k e sys = .next a ∧ ActedAt k (perform e) sys a := by
  obtain ⟨t, hp, hrom, -, hsource⟩ := perform_next e (sys.core k)
  exact onCore_actedAt ⟨t, hp, hrom, hsource⟩

theorem stepAt_next (k : Fin n) (sys : System n) : ∃ a, stepAt k sys = .next a ∧ ActedAt k step sys a :=
  onCore_actedAt (step_next (sys.core k))

/-- Acts of two different instances commute: both orders leave each of the two as its own act alone leaves it (R120). -/
theorem ActedAt.comm {j k : Fin n} {f g : State → Host.Outcome State Fault Refusal} {sys a b c d : System n}
    (hjk : j ≠ k) (ha : ActedAt j f sys a) (hac : ActedAt k g a c) (hb : ActedAt k g sys b) (hbd : ActedAt j f b d) :
    c = d := by
  have hj : a.core j = d.core j := by
    rw [← Host.Outcome.next.injEq, ← ha.self, ← hbd.self, hb.other j hjk]
  have hk : c.core k = b.core k := by
    rw [← Host.Outcome.next.injEq, ← hac.self, ← hb.self, ha.other k hjk.symm]
  refine System.ext_core (by rw [hac.rom, ha.rom, hbd.rom, hb.rom]) fun m => ?_
  by_cases hmj : m = j
  · rw [hmj, hac.other j hjk, hj]
  by_cases hmk : m = k
  · rw [hmk, hbd.other k hjk.symm, hk]
  · rw [hac.other m hmk, ha.other m hmj, hbd.other m hmj, hb.other m hmk]

/-- A CORE whose host queried the encoder shows the shared table's code of its character (R59, R80). -/
theorem ActedAt.codeO_query {k : Fin n} {ch : Char8} {sys a : System n} (h : ActedAt k (perform (.query ch)) sys a) :
    (a.core k).codeO = convert sys.rom ch := by
  have hself := h.self
  rw [perform_query_eq, Host.Outcome.next.injEq] at hself
  rw [← hself]
  rfl

/- ---- Many transactions in one order ---- -/

theorem performAll_cons {k : Fin n} {e : Transaction} {sys sys' : System n} (h : performAt k e sys = .next sys')
    (ops : List (Fin n × Transaction)) : performAll ((k, e) :: ops) sys = performAll ops sys' := by
  simp [performAll, h]

theorem transactionsAt_cons_self (k : Fin n) (e : Transaction) (ops : List (Fin n × Transaction)) :
    transactionsAt k ((k, e) :: ops) = e :: transactionsAt k ops := by
  simp [transactionsAt]

theorem transactionsAt_cons_other {j k : Fin n} (h : k ≠ j) (e : Transaction) (ops : List (Fin n × Transaction)) :
    transactionsAt k ((j, e) :: ops) = transactionsAt k ops := by
  simp [transactionsAt, h.symm]

/-- Any interleaving answers a system with the same table, in which each CORE ends as it would end alone on its own
transactions (R55, R59, R120). -/
theorem performAll_next (ops : List (Fin n × Transaction)) (sys : System n) :
    ∃ a, performAll ops sys = .next a ∧ a.rom = sys.rom ∧
      ∀ k, ∃ flags, observe (transactionsAt k ops) (sys.core k) = .next (a.core k, flags) := by
  induction ops generalizing sys with
  | nil => exact ⟨sys, rfl, rfl, fun k => ⟨[], rfl⟩⟩
  | cons op ops ih =>
    obtain ⟨j, e⟩ := op
    obtain ⟨sys', hperform, hacted⟩ := performAt_next j e sys
    obtain ⟨a, hall, hrom, hobserve⟩ := ih sys'
    refine ⟨a, (performAll_cons hperform ops).trans hall, hrom.trans hacted.rom, fun k => ?_⟩
    obtain ⟨flags, ho⟩ := hobserve k
    by_cases hk : k = j
    · subst hk
      rw [transactionsAt_cons_self]
      exact ⟨_, observe_cons hacted.self ho⟩
    · rw [transactionsAt_cons_other hk, ← hacted.other k hk]
      exact ⟨flags, ho⟩

/- ---- The obligations ---- -/

/-- Settles O48: each transaction is an act of its CORE alone, and such acts commute. -/
theorem instancesDoNotInterfere : Obligations.InstancesDoNotInterfere := by
  unfold Obligations.InstancesDoNotInterfere
  constructor
  · intro n sys j k e f hjk
    obtain ⟨a, hja, ha⟩ := performAt_next j e sys
    obtain ⟨b, hkb, hb⟩ := performAt_next k f sys
    obtain ⟨c, hkc, hac⟩ := performAt_next k f a
    obtain ⟨d, hjd, hbd⟩ := performAt_next j e b
    obtain rfl : c = d := ha.comm hjk hac hb hbd
    exact ⟨a, b, c, hja, ha.self, ha.other, hkb, hkc, hjd⟩
  · intro n sys k
    obtain ⟨a, hstep, ha⟩ := stepAt_next k sys
    exact ⟨a, hstep, ha.self, ha.other⟩

/-- Settles O49: the interleaving keeps the one table, and a query reads it, whether or not another CORE queries after
it. -/
theorem oneRomServesEveryInstance : Obligations.OneRomServesEveryInstance := by
  unfold Obligations.OneRomServesEveryInstance
  intro n sys ops
  obtain ⟨a, hall, hrom, -⟩ := performAll_next ops sys
  refine ⟨a, hall, hrom, fun k => hrom, fun k ch => ?_, fun j k ch ch' hjk => ?_⟩
  · obtain ⟨b, hquery, hb⟩ := performAt_next k (.query ch) a
    exact ⟨b, hquery, hrom ▸ hb.codeO_query⟩
  · obtain ⟨b, hfirst, hb⟩ := performAt_next j (.query ch) a
    obtain ⟨c, hsecond, hc⟩ := performAt_next k (.query ch') b
    have hboth : performAll [(j, .query ch), (k, .query ch')] a = .next c :=
      (performAll_cons hfirst _).trans (performAll_cons hsecond [])
    refine ⟨c, hboth, ?_, ?_⟩
    · rw [hc.other j hjk, hb.codeO_query, hrom]
    · rw [hc.codeO_query, hb.rom, hrom]

/-- Settles O50, by induction on the interleaving. -/
theorem interleavingIsUnobservable : Obligations.InterleavingIsUnobservable := by
  unfold Obligations.InterleavingIsUnobservable
  intro n sys ops
  obtain ⟨a, hall, -, hobserve⟩ := performAll_next ops sys
  exact ⟨a, hall, hobserve⟩

end Sys2Proof.Machine
end

section
/-! Encoding and decoding (30_encoding.md R61, R62, R66, R68): bytes of a format are read back, every instruction is decoded
from its canonical encoding, and that encoding is the one word whose unused fields are 0. -/

namespace Sys2Proof

open Sys2Proof.Machine

/- ---- The decoder on the bytes of a format ---- -/

/-- Bytes that are in a format decode to what its operation decodes to (R62). -/
theorem decodeBytes_of_presentedOf {bytes : List Byte} {p : Presented} (h : presentedOf bytes = .ok p) :
    decodeBytes bytes = .ok (decode p) := by
  rw [decodeBytes, h]
  rfl

/-- Bytes that decode are in a format. -/
theorem exists_presentedOf_of_decodeBytes {bytes : List Byte} {i : Instr} (h : decodeBytes bytes = .ok i) :
    ∃ p, presentedOf bytes = .ok p ∧ decode p = i := by
  cases hp : presentedOf bytes with
  | error r => rw [decodeBytes, hp] at h; cases h
  | ok p =>
    rw [decodeBytes_of_presentedOf hp] at h
    exact ⟨p, rfl, Except.ok.inj h⟩

/-- A word of the table that decodes is in a format (log 7). -/
theorem exists_presentedOf_of_decodeTableWord {nbits w : Nat} {i : Instr} (h : decodeTableWord nbits w = some i) :
    ∃ p, presentedOf (tableBytes nbits w) = .ok p ∧ decode p = i := by
  cases hb : decodeBytes (tableBytes nbits w) with
  | error r => rw [decodeTableWord, hb] at h; cases h
  | ok j =>
    rw [decodeTableWord, hb] at h
    exact exists_presentedOf_of_decodeBytes (hb.trans (congrArg _ (Option.some.inj h)))

theorem decodeBytes_bytesOf (p : Presented) : decodeBytes (bytesOf p) = .ok (decode p) :=
  decodeBytes_of_presentedOf (presentedOf_bytesOf p)

/- ---- The canonical encoding ---- -/

/-- Every instruction has the facts of its canonical encoding (R62, R68). -/
theorem canonicalEncoding (i : Instr) : Laws.CanonicalEncoding.Statement i :=
  match i with
  | .nop => Laws.CanonicalEncoding.nop
  | .step => Laws.CanonicalEncoding.step
  | .load data => Laws.CanonicalEncoding.load data
  | .loadc ch => Laws.CanonicalEncoding.loadc ch
  | .convert ch => Laws.CanonicalEncoding.convert ch

@[simp] theorem decode_encode (i : Instr) : decode (encode i) = i := by
  obtain ⟨-, hdecode, -⟩ := canonicalEncoding i
  exact hdecode

theorem decodeBytes_encodeBytes (i : Instr) : decodeBytes (encodeBytes i) = .ok i := by
  rw [encodeBytes, decodeBytes_bytesOf, decode_encode]

theorem encodeBytes_injective {i j : Instr} (h : encodeBytes i = encodeBytes j) : i = j :=
  Except.ok.inj <| by rw [← decodeBytes_encodeBytes i, h, decodeBytes_encodeBytes]

/-- A command word is put together from its own fields only (R62). -/
theorem commandWord_eq_iff {data : Word} {ch : Char8} {cmd : BitVec 2} {cw : CommandWord} :
    commandWord data ch cmd = cw ↔ dataField cw = data ∧ chField cw = ch ∧ cmdField cw = cmd := by
  constructor
  · rintro rfl
    exact fields_commandWord data ch cmd
  · rintro ⟨rfl, rfl, rfl⟩
    exact commandWord_fields cw

/-- A word is the canonical encoding of what it decodes to exactly when the fields its command does not use are 0 (R62,
R68). -/
theorem encode_decodeCommand_iff (cw : CommandWord) : encode (decodeCommand cw) = .cmd42 cw ↔
    ((cmdField cw ≠ 0b10#2 → dataField cw = 0x00000000#32) ∧ (cmdField cw ≠ 0b11#2 → chField cw = 0x00#8)) := by
  rcases decodeCommand_cases cw with ⟨hc, hd⟩ | ⟨hc, hd⟩ | ⟨hc, hd⟩ | ⟨hc, hd⟩ <;>
    simp [hd, encode, commandWord_eq_iff, hc]

/-- The field a command does not use has no part in what it decodes to (R66). -/
theorem decodeCommand_congr {cw cw' : CommandWord} (hcmd : cmdField cw = cmdField cw')
    (hdata : cmdField cw = 0b10#2 → dataField cw = dataField cw')
    (hch : cmdField cw = 0b11#2 → chField cw = chField cw') : decodeCommand cw = decodeCommand cw' := by
  rcases decodeCommand_cases cw with ⟨hc, -⟩ | ⟨hc, -⟩ | ⟨hc, -⟩ | ⟨hc, -⟩
  · simp [decodeCommand, ← hcmd, hc]
  · simp [decodeCommand, ← hcmd, hc]
  · simp [decodeCommand, ← hcmd, hc, hdata hc]
  · simp [decodeCommand, ← hcmd, hc, hch hc]

/- ---- The obligations ---- -/

/-- Settles O36: the bytes are read back, a word is its three fields, and the decoder is a left inverse of the encoder. -/
theorem decodeInvertsEncode : Obligations.DecodeInvertsEncode := by
  unfold Obligations.DecodeInvertsEncode
  exact ⟨fun i _ => decodeBytes_encodeBytes i, encode_decodeCommand_iff, fun i j => encodeBytes_injective⟩

/-- Settles O37, by evaluation of the decoder on the words. -/
theorem writtenWordsDecode : Obligations.WrittenWordsDecode := by
  unfold Obligations.WrittenWordsDecode
  decide

end Sys2Proof
end

section
/-! The classifier (30_encoding.md R63) on each of its ranges, and what CONVERT makes of it (R82, R83). -/

namespace Sys2Proof.Machine

variable {ch : Char8}

/-- The index of a digit (R63). -/
theorem romIndex6_toNat_of_digit (hlo : 0x30 ≤ ch.toNat) (hhi : ch.toNat ≤ 0x39) :
    (romIndex6 ch).toNat = ch.toNat - 0x30 := by
  rw [romIndex6, if_pos (by bv_omega)]
  bv_omega

/-- The index of a capital letter (R63). -/
theorem romIndex6_toNat_of_upper (hlo : 0x41 ≤ ch.toNat) (hhi : ch.toNat ≤ 0x5A) :
    (romIndex6 ch).toNat = ch.toNat - 0x41 + 10 := by
  rw [romIndex6, if_neg (by bv_omega), if_pos (by bv_omega)]
  bv_omega

/-- The index of a lower-case letter (R63). -/
theorem romIndex6_toNat_of_lower (hlo : 0x61 ≤ ch.toNat) (hhi : ch.toNat ≤ 0x7A) :
    (romIndex6 ch).toNat = ch.toNat - 0x61 + 10 := by
  rw [romIndex6, if_neg (by bv_omega), if_neg (by bv_omega), if_pos (by bv_omega)]
  bv_omega

/-- Every other character has the index of the word gap (R63, R83). -/
theorem romIndex6_of_not_inThreeRanges (h : ¬ inThreeRanges ch) : romIndex6 ch = 36#6 := by
  unfold inThreeRanges at h
  rw [romIndex6, if_neg (by bv_omega), if_neg (by bv_omega), if_neg (by bv_omega)]

/-- Characters that the classifier gives one number have one index into the ROM (R51). -/
theorem romIndex_congr {c d : Char8} (h : romIndex6 c = romIndex6 d) : romIndex c = romIndex d :=
  Fin.ext (by simp [romIndex, h])

/-- A character outside the ranges selects entry 36, whatever the table holds (R83). -/
theorem convert_of_not_inThreeRanges (rom : RomTable) (h : ¬ inThreeRanges ch) : convert rom ch = romRead rom 36 := by
  have hidx : romIndex ch = 36 := Fin.ext (by simp [romIndex, romIndex6_of_not_inThreeRanges h])
  rw [convert, hidx]

/-- The lower case of a letter, 0x20 above it, has the letter's index (R63, R82). -/
theorem romIndex6_lowerCase (hlo : 0x41 ≤ ch.toNat) (hhi : ch.toNat ≤ 0x5A) :
    romIndex6 (ch + 0x20#8) = romIndex6 ch := by
  have hlower : (ch + 0x20#8).toNat = ch.toNat + 0x20 := by bv_omega
  apply BitVec.eq_of_toNat_eq
  rw [romIndex6_toNat_of_upper hlo hhi, romIndex6_toNat_of_lower (by omega) (by omega), hlower]
  omega

/- ---- The obligations ---- -/

/-- Settles O17, range by range. -/
theorem classifierFollowsFourTests : Obligations.ClassifierFollowsFourTests := by
  unfold Obligations.ClassifierFollowsFourTests
  exact fun ch => ⟨romIndex6_toNat_of_digit, romIndex6_toNat_of_upper, romIndex6_toNat_of_lower,
    fun h => congrArg BitVec.toNat (romIndex6_of_not_inThreeRanges h), Nat.le_of_lt_succ (romIndex6_lt ch), rfl⟩

/-- Settles O21: both cases of a letter have one index, and CONVERT depends on the index alone. -/
theorem upperAndLowerCaseAgree : Obligations.UpperAndLowerCaseAgree := by
  unfold Obligations.UpperAndLowerCaseAgree
  intro rom ch hlo hhi
  have hcase := romIndex6_lowerCase hlo hhi
  exact ⟨romIndex6_toNat_of_upper hlo hhi, romIndex_congr hcase, convert_congr rom hcase.symm⟩

/-- Settles O35: the four codes of the command bits, the field each uses, and the totality of what they select. -/
theorem everyCommandWordDecodes : Obligations.EveryCommandWordDecodes := by
  unfold Obligations.EveryCommandWordDecodes
  exact ⟨decodeCommand_cases, fun cw cw' => decodeCommand_congr, fun cw => decodeBytes_bytesOf (.cmd42 cw),
    fun ch => decodeBytes_bytesOf (.enc8 ch), fun rom ch => convert_of_not_inThreeRanges rom,
    fun data s => ⟨_, exec_load_eq s data, s.writeCursor_cursor data⟩⟩

end Sys2Proof.Machine
end

section
/-! What a run of encoded operations does (30_encoding.md R60, R68-R70): the operation a transaction performs, the flags of a
run counted, the transactions that can be left out of it, and the assembler's lines. -/

namespace Sys2Proof.Machine

/- ---- The operation that a transaction performs ---- -/

/-- Issuing an encoded operation performs what it decodes to, from a state that differs at most in the level on `ch_i` (R60,
R61). -/
theorem perform_transactionOf (p : Presented) (s : State) :
    ∃ ch, perform (transactionOf p) s = exec (decode p) (s.driveCh ch) := by
  cases p with
  | cmd42 cw => exact ⟨chField cw, rfl⟩
  | enc8 ch => exact ⟨s.chI, rfl⟩

/-- Placing a table word puts the operation of its bytes before everything else (log 3). -/
theorem withFetchWord_pending {nbits w : Nat} {p : Presented} (h : presentedOf (tableBytes nbits w) = .ok p) (s : State) :
    (s.withFetchWord nbits w).pending = transactionOf p :: s.pending := by
  simp [State.withFetchWord, pendingWithWord, h]

/-- Settles O33: a step performs the first transaction presented, and placing a table word makes its operation the first. -/
theorem stepRunsPresentedInstruction : Obligations.StepRunsPresentedInstruction := by
  unfold Obligations.StepRunsPresentedInstruction
  refine ⟨fun s cw rest h => (step_of_pending h).trans (perform_command_eq _ cw),
    fun s ch rest h => step_of_pending h, fun bytes p => decodeBytes_of_presentedOf, fun s nbits w i h => ?_⟩
  obtain ⟨p, hp, rfl⟩ := exists_presentedOf_of_decodeTableWord h
  obtain ⟨ch, hperform⟩ := perform_transactionOf p ((s.withFetchWord nbits w).withPending s.pending)
  exact ⟨((s.withFetchWord nbits w).withPending s.pending).driveCh ch, rfl, rfl, rfl, rfl, rfl, rfl,
    (step_of_pending (withFetchWord_pending hp s)).trans hperform⟩

/- ---- One flag for each tick ---- -/

/-- A transaction returns one flag if it is a tick and none otherwise (R70). -/
theorem returned_length (e : Transaction) (s : State) : (returned e s).length = if isTick e then 1 else 0 := by
  cases ht : isTick e with
  | true =>
    obtain ⟨hflag, -⟩ := perform_tick ht s
    rw [hflag]
    rfl
  | false =>
    rw [returned_of_not_tick ht s]
    rfl

/-- A run returns as many flags as it has ticks (R70). -/
theorem observe_length (es : List Transaction) (s : State) :
    ∃ t flags, observe es s = .next (t, flags) ∧ flags.length = es.countP isTick := by
  induction es generalizing s with
  | nil => exact ⟨s, [], rfl, rfl⟩
  | cons e es ih =>
    obtain ⟨s', hp, -⟩ := perform_next e s
    obtain ⟨t, flags, ho, hlen⟩ := ih s'
    refine ⟨t, _, observe_cons hp ho, ?_⟩
    rw [List.length_append, returned_length, hlen, List.countP_cons, Nat.add_comm]

/-- Settles O38: the flags counted along the run, and the frame of a transaction that is no tick. -/
theorem oneFlagPerTick : Obligations.OneFlagPerTick := by
  unfold Obligations.OneFlagPerTick
  refine ⟨observe_length, fun cw s hcmd => ?_⟩
  have ht : isTick (.edge false cw) = false := by simp [isTick, hcmd]
  obtain ⟨t, hp, -⟩ := perform_next (.edge false cw) s
  exact ⟨t, hp, perform_outQ_of_not_tick ht rfl hp, returned_of_not_tick ht s⟩

/- ---- Silent transactions can be left out ---- -/

/-- The flags returned do not depend on the level on `ch_i`. -/
theorem returned_driveCh (e : Transaction) (s : State) (ch : Char8) : returned e (s.driveCh ch) = returned e s := rfl

/-- A silent transaction does nothing but drive `ch_i` (R81, R96). -/
theorem perform_of_silent {e : Transaction} (h : isSilent e = true) (s : State) :
    ∃ ch, perform e s = .next (s.driveCh ch) := by
  match e with
  | .edge true cw => cases h
  | .edge false cw => exact ⟨chField cw, by rw [perform_command_eq, (isSilent_command_iff cw).1 h, exec_nop_eq]⟩
  | .query ch => exact ⟨ch, rfl⟩
  | .powerCycle => cases h

/-- No silent transaction is a tick (R70). -/
theorem isTick_of_silent {e : Transaction} (h : isSilent e = true) : isTick e = false := by
  match e with
  | .edge true _ | .query _ | .powerCycle => rfl
  | .edge false cw =>
    refine Bool.eq_false_iff.2 fun ht => ?_
    rw [isTick_command_iff, (isSilent_command_iff cw).1 h] at ht
    cases ht

/-- The level that stands on `ch_i` before a transaction shows nowhere but on `ch_i` after it (R60). -/
theorem perform_driveCh {e : Transaction} {s t : State} (h : perform e s = .next t) (ch : Char8) :
    ∃ ch', perform e (s.driveCh ch) = .next (t.driveCh ch') := by
  match e with
  | .edge rst cw => exact ⟨t.chI, h⟩
  | .query _ => exact ⟨t.chI, h⟩
  | .powerCycle => cases h; exact ⟨ch, rfl⟩

/-- A run and the run without its silent transactions, from states that differ at most on `ch_i`, return the same flags and
end in states that differ at most on `ch_i` (R70, R81, R96; log 6). -/
theorem observe_filter_not_silent (es : List Transaction) (s : State) (ch : Char8) :
    ∃ t flags ch', observe es s = .next (t, flags) ∧
      observe (es.filter fun e => !isSilent e) (s.driveCh ch) = .next (t.driveCh ch', flags) := by
  induction es generalizing s ch with
  | nil => exact ⟨s, [], ch, rfl, rfl⟩
  | cons e es ih =>
    cases hs : isSilent e with
    | true =>
      obtain ⟨c, hp⟩ := perform_of_silent hs s
      obtain ⟨t, flags, ch', ho, hfilter⟩ := ih (s.driveCh c) ch
      refine ⟨t, flags, ch', ?_, ?_⟩
      · have hrun := observe_cons hp ho
        rwa [returned_of_not_tick (isTick_of_silent hs), List.nil_append] at hrun
      · rw [List.filter_cons_of_neg (by simp [hs])]
        exact hfilter
    | false =>
      obtain ⟨s', hp, -⟩ := perform_next e s
      obtain ⟨c, hp'⟩ := perform_driveCh hp ch
      obtain ⟨t, flags, ch', ho, hfilter⟩ := ih s' c
      refine ⟨t, returned e s ++ flags, ch', observe_cons hp ho, ?_⟩
      rw [List.filter_cons_of_pos (by simp [hs]), ← returned_driveCh e s ch]
      exact observe_cons hp' hfilter

/-- Settles O42, from the two runs started in the same state. -/
theorem paddingDoesNotChangeTheFlags : Obligations.PaddingDoesNotChangeTheFlags := by
  unfold Obligations.PaddingDoesNotChangeTheFlags
  intro es s
  obtain ⟨t, flags, ch, ho, hfilter⟩ := observe_filter_not_silent es s s.chI
  exact ⟨t, t.driveCh ch, flags, ho, hfilter, rfl, rfl⟩

/- ---- Issued instructions and the lines of the assembler ---- -/

/-- Issuing an instruction that is a command performs it, once its word's character is on `ch_i` (R60, R68). -/
theorem perform_issue_of_command {i : Instr} {cw : CommandWord} (h : encode i = .cmd42 cw) (s : State) :
    perform (issue i) s = exec i (s.driveCh (chField cw)) := by
  have hdecode : decodeCommand cw = i := (congrArg decode h).symm.trans (decode_encode i)
  rw [issue, h, transactionOf, perform_command_eq, hdecode]

theorem perform_issue_load (data : Word) (s : State) :
    perform (issue (.load data)) s = .next ((s.driveCh 0x00#8).writeCursor data) := by
  obtain ⟨-, hch, -⟩ := fields_commandWord data 0x00#8 0b10#2
  rw [perform_issue_of_command rfl, exec_load_eq, ← hch]
  rfl

theorem perform_issue_loadc (ch : Char8) (s : State) :
    perform (issue (.loadc ch)) s = .next ((s.driveCh ch).writeCursor (convert s.rom ch)) := by
  rw [perform_issue_of_command rfl, exec_loadc_eq]
  rfl

/-- An encoded operation issued is a tick exactly when it decodes to STEP (R61, R70). -/
theorem isTick_transactionOf_iff (p : Presented) : isTick (transactionOf p) = true ↔ decode p = .step := by
  cases p with
  | cmd42 cw => exact isTick_command_iff cw
  | enc8 ch => simp [transactionOf, isTick, decode]

/-- Of the issued instructions only STEP is a tick (R61, R70). -/
theorem isTick_issue_iff (i : Instr) : isTick (issue i) = true ↔ i = .step := by
  rw [issue, isTick_transactionOf_iff, decode_encode]

/-- An issued instruction other than STEP returns nothing (R70). -/
theorem returned_issue_of_ne_step {i : Instr} (h : i ≠ .step) (s : State) : returned (issue i) s = [] :=
  returned_of_not_tick (Bool.eq_false_iff.2 fun ht => h ((isTick_issue_iff i).1 ht)) s

/-- `CLEAR` makes the cursor 0 and returns nothing (R69). -/
theorem observe_clear (s : State) :
    observe (expandLine s.rom .clear) s = .next ((s.driveCh 0x00#8).writeCursor 0x00000000#32, []) := by
  have hrun := observe_cons (perform_issue_load 0x00000000#32 s) (observe_nil _)
  rwa [returned_issue_of_ne_step (by simp)] at hrun

/-- The space has the word gap's code (R47, R63). -/
theorem convert_space {rom : RomTable} (h : romAdmissible rom = true) : convert rom 0x20#8 = 0x00000008#32 := by
  have hout : ¬ inThreeRanges 0x20#8 := by unfold inThreeRanges; decide
  rw [convert_of_not_inThreeRanges rom hout, romRead_wordGap h]

/-- `SEND` is a LOADC and as many STEPs as the code has ticks (R69). -/
theorem map_issue_sendCommands (rom : RomTable) (ch : Char8) : (sendCommands rom ch).map issue =
    issue (.loadc ch) :: List.replicate (ticks (convert rom ch)) (issue .step) := by
  rw [sendCommands, List.map_cons, List.map_replicate]

theorem expandLine_send (rom : RomTable) (ch : Char8) :
    expandLine rom (.send ch.toNat) = (sendCommands rom ch).map issue := by
  rw [expandLine, BitVec.ofNat_toNat, BitVec.setWidth_eq]

/-- With an admissible ROM, `SEND` returns the data bits of its character and ends idle (R69, R84). -/
theorem observe_sendCommands (ch : Char8) (s : State) (h : romAdmissible s.rom = true) :
    ∃ t, observe ((sendCommands s.rom ch).map issue) s = .next (t, dataBits (convert s.rom ch)) ∧ t.idleO = true := by
  have hticks : ∀ e ∈ List.replicate (ticks (convert s.rom ch)) (issue .step), isTick e = true := fun e he => by
    rw [List.eq_of_mem_replicate he]
    exact isTick_issue_step
  obtain ⟨t, hplay, hidle⟩ :=
    observe_ticks_dataBits (s := (s.driveCh ch).writeCursor (convert s.rom ch)) hticks (two_le_convert h ch)
      List.length_replicate
  refine ⟨t, ?_, (isIdle_iff _).2 hidle⟩
  rw [map_issue_sendCommands]
  have hrun := observe_cons (perform_issue_loadc ch s) hplay
  rwa [returned_issue_of_ne_step (by simp)] at hrun

/-- Settles O39: CLEAR loads 0, SEND plays its character's code, and GAP is SEND of the space, whose code has three off
ticks. -/
theorem pseudoInstructionsDoWhatTheyName : Obligations.PseudoInstructionsDoWhatTheyName := by
  unfold Obligations.PseudoInstructionsDoWhatTheyName
  refine ⟨fun s => ⟨rfl, _, observe_clear s, (isIdle_iff _).2 rfl, rfl⟩, fun ch s h => ?send,
    fun s h => ⟨rfl, ?gapCommands, ?gapFlags⟩⟩
  case send =>
    rw [expandLine_send]
    exact ⟨map_issue_sendCommands s.rom ch, observe_sendCommands ch s h⟩
  case gapCommands =>
    rw [expandLine, map_issue_sendCommands, convert_space h]
    rfl
  case gapFlags =>
    have hbits : dataBits 0x00000008#32 = [false, false, false] := by decide
    rw [expandLine, ← hbits, ← convert_space h]
    exact observe_sendCommands 0x20#8 s h

/-- Settles O40, by evaluation of the parser and the assembler on the lines. -/
theorem linesOfTextAssemble : Obligations.LinesOfTextAssemble := by
  unfold Obligations.LinesOfTextAssemble
  exact ⟨rfl, rfl, rfl, rfl, rfl, rfl⟩

end Sys2Proof.Machine
end

section
/-! The encoder (40_encoder.md R80-R83): what CONVERT shows on `code_o`, that nothing but the character and the ROM decides it,
and what it is for characters outside the three ranges. -/

namespace Sys2Proof.Machine

/- ---- What stands on code_o ---- -/

/-- After an edge, with `rst` high or low and whatever the command, `code_o` shows the word's character (R60, R81). -/
theorem codeO_of_perform_edge {rst : Bool} {cw : CommandWord} {s t : State} (h : perform (.edge rst cw) s = .next t) :
    t.codeO = convert s.rom (chField cw) := by
  obtain ⟨hrom, -⟩ := perform_frame h
  rw [State.codeO_eq, hrom, perform_edge_chI h]

/-- A query after a run shows the code by the ROM of the run's start: no run writes the ROM (R43, R81). -/
theorem observe_append_query (es : List Transaction) (ch : Char8) (s : State) :
    ∃ t flags, observe (es ++ [.query ch]) s = .next (t, flags) ∧ t.codeO = convert s.rom ch := by
  obtain ⟨t, flags, hrun, hrom⟩ := observe_next es s
  have hquery := observe_cons (perform_query_eq t ch) (observe_nil _)
  exact ⟨_, _, observe_append hrun hquery, congrArg (convert · ch) hrom⟩

/- ---- The characters that R80 and R83 speak of ---- -/

/-- The corner cases of R80 lie outside the three ranges: the neighbours of the ranges, NUL, DEL, the space and every byte
from 0x80. -/
theorem not_inThreeRanges_of_corner {ch : Char8}
    (h : ch ∈ ([0x2F#8, 0x3A#8, 0x40#8, 0x5B#8, 0x60#8, 0x7B#8, 0x00#8, 0x7F#8, 0x20#8] : List Char8) ∨
      0x80 ≤ ch.toNat) : ¬ inThreeRanges ch := by
  unfold inThreeRanges
  rcases h with hlisted | hhigh
  · revert ch
    decide
  · omega

/-- A capital letter and its lower case, 0x20 above, have one code, whatever the table holds (R82). -/
theorem convert_lowerCase (rom : RomTable) {ch : Char8} (hlo : 0x41 ≤ ch.toNat) (hhi : ch.toNat ≤ 0x5A) :
    convert rom (ch + 0x20#8) = convert rom ch :=
  convert_congr rom (romIndex6_lowerCase hlo hhi)

/-- The example of R80: 'S' has the code that the source pins at entry 28 (R48). -/
theorem convert_upperS {rom : RomTable} (h : romAdmissible rom = true) : convert rom 0x53#8 = 0x00000035#32 := by
  obtain ⟨-, -, hS, -⟩ := romRead_pinned h
  have hidx : romIndex 0x53#8 = 28 := by decide
  rw [convert, hidx, hS]

/- ---- The obligations ---- -/

/-- Settles O20: the code is a function of the level on `ch_i` and of the ROM, which no transaction and no run writes. -/
theorem convertDependsOnlyOnCharacterAndRom : Obligations.ConvertDependsOnlyOnCharacterAndRom := by
  unfold Obligations.ConvertDependsOnlyOnCharacterAndRom
  refine ⟨fun ch s s' hrom => ?registers, fun rst cw s => ?edge, observe_append_query⟩
  case registers =>
    exact ⟨_, _, exec_convert_eq s ch, exec_convert_eq s' ch, congrArg (convert · ch) hrom⟩
  case edge =>
    obtain ⟨t, hp, -⟩ := perform_next (.edge rst cw) s
    exact ⟨t, hp, codeO_of_perform_edge hp⟩

/-- Settles O22: the character and the space are both outside the ranges, so both have entry 36; the count is evaluated. -/
theorem everyOtherCharacterIsWordGap : Obligations.EveryOtherCharacterIsWordGap := by
  unfold Obligations.EveryOtherCharacterIsWordGap
  refine ⟨fun rom ch hout => ?_, rfl⟩
  have hgap := convert_of_not_inThreeRanges rom hout
  have hspace : convert rom 0x20#8 = romRead rom 36 :=
    convert_of_not_inThreeRanges rom (not_inThreeRanges_of_corner (.inl (by simp)))
  exact ⟨hgap.trans hspace.symm, hgap⟩

/-- Settles O19: CONVERT only drives `ch_i`, and `code_o` then shows the entry of the character's index. -/
theorem convertShowsRomEntry : Obligations.ConvertShowsRomEntry := by
  unfold Obligations.ConvertShowsRomEntry
  refine ⟨fun ch => rfl, fun ch s => ⟨_, exec_convert_eq s ch, rfl, rfl, rfl, rfl, rfl, rfl, fun idx => rfl⟩,
    fun s ch hcorner => ?corner, fun s ch hlo hhi => ?letterCase, fun s hrom => ?letterS⟩
  case corner =>
    exact ⟨_, exec_convert_eq s ch, convert_of_not_inThreeRanges s.rom (not_inThreeRanges_of_corner hcorner)⟩
  case letterCase =>
    exact ⟨_, _, exec_convert_eq s ch, exec_convert_eq s (ch + 0x20#8), (convert_lowerCase s.rom hlo hhi).symm⟩
  case letterS =>
    have hlower : convert s.rom 0x73#8 = convert s.rom 0x53#8 :=
      convert_lowerCase s.rom (ch := 0x53#8) (by decide) (by decide)
    exact ⟨_, _, exec_convert_eq s 0x53#8, exec_convert_eq s 0x73#8, convert_upperS hrom,
      hlower.trans (convert_upperS hrom)⟩

end Sys2Proof.Machine
end

section
/-! The cursor's advance and shifts of a word (41_stepper.md R90, R93, R97-R100): how far a word can be shifted before only
its sentinel is left, and that `n` STEPs shift by `n` as long as fewer than its ticks were made. -/

namespace Sys2Proof.Machine

/- ---- STEP on idle and on the bare sentinel (R91, R92) ---- -/

@[simp] theorem advance_idle : advance 0#32 = 0#32 := by decide

@[simp] theorem advance_sentinel : advance 1#32 = 0#32 := by decide

@[simp] theorem emittedFlag_sentinel : emittedFlag 1#32 = true := by decide

/- ---- How far a word can be shifted ---- -/

/-- The highest set bit of a number lies above position `n` exactly when the number is at least `2 ^ (n + 1)`. -/
theorem lt_log2_iff (n m : Nat) : n < m.log2 ↔ 2 ^ (n + 1) ≤ m := by
  rcases Nat.eq_zero_or_pos m with rfl | hm
  · simp
  · exact Nat.le_log2 hm.ne'

/-- At most 31 data bits lie below the sentinel of a word (R98). -/
theorem log2_toNat_le (c : Word) : c.toNat.log2 ≤ 31 := by
  have h := lt_log2_iff 31 c.toNat
  have := c.isLt
  omega

/-- A shifted word reaches a power of two exactly when the word reaches it, shifted as far. -/
theorem two_pow_le_ushiftRight_iff (c : Word) (n k : Nat) : 2 ^ k ≤ (c >>> n).toNat ↔ 2 ^ (k + n) ≤ c.toNat := by
  rw [BitVec.toNat_ushiftRight, Nat.shiftRight_eq_div_pow, Nat.le_div_iff_mul_le (Nat.two_pow_pos n), pow_add]

/-- A shifted word is at or above the cutoff of STEP exactly when a data bit is left after the one STEP emits (R90, R97). -/
theorem four_le_ushiftRight_iff (c : Word) (n : Nat) : 4 ≤ (c >>> n).toNat ↔ n + 1 < c.toNat.log2 := by
  rw [lt_log2_iff, Nat.add_assoc, Nat.add_comm n]
  exact two_pow_le_ushiftRight_iff c n 2

/-- STEP on a shifted word shifts it once more, or makes it idle when it has no data bit after this one (R90). -/
theorem advance_ushiftRight (c : Word) (n : Nat) :
    advance (c >>> n) = if n + 1 < c.toNat.log2 then c >>> (n + 1) else 0#32 := by
  split
  · next h => rw [advance_of_ge ((four_le_ushiftRight_iff c n).2 h), BitVec.shiftRight_add]
  · next h => exact advance_of_lt (Nat.lt_of_not_le fun hge => h ((four_le_ushiftRight_iff c n).1 hge))

/- ---- The cursor after `n` STEPs, and the flags they return ---- -/

/-- Ticks are left after `n` STEPs when data bits are; a bare sentinel, without data bits, has one tick (R97). -/
theorem lt_ticks_iff (c : Word) (n : Nat) : n < ticks c ↔ n = 0 ∧ c ≠ 0#32 ∨ n < c.toNat.log2 := by
  unfold ticks
  split
  · next h => simp [h]
  · next h0 =>
    have hone : Nat.log2 1 = 0 := by decide
    split
    · next h => simp [h, hone]
    · next h1 =>
      have hpos : 0 < c.toNat.log2 := (lt_log2_iff 0 c.toNat).2 (by bv_omega)
      simp only [h0, ne_eq, not_false_eq_true, and_true]
      omega

/-- A word is not yet shifted to 0 while ticks are left (R97). -/
theorem ushiftRight_ne_zero {c : Word} {n : Nat} (h : n < ticks c) : c >>> n ≠ 0#32 := by
  have hword : 2 ^ n ≤ c.toNat := by
    rcases (lt_ticks_iff c n).1 h with ⟨rfl, h0⟩ | hlog
    · rw [pow_zero]
      bv_omega
    · exact (Nat.pow_le_pow_right two_pos n.le_succ).trans ((lt_log2_iff n _).1 hlog)
  have hshifted : 2 ^ 0 ≤ (c >>> n).toNat := (two_pow_le_ushiftRight_iff c n 0).2 (by rwa [Nat.zero_add])
  exact fun hzero => by simp [hzero] at hshifted

/-- A well-formed code takes as many STEPs as its sentinel's position (R97). -/
theorem ticks_eq_log2 {c : Word} (h : 2 ≤ c.toNat) : ticks c = c.toNat.log2 := by
  rw [ticks_of_two_le h, dataBits, List.length_map, List.length_range]

theorem succ_lt_ticks_iff (c : Word) (n : Nat) : n + 1 < ticks c ↔ n + 1 < c.toNat.log2 := by
  simp [lt_ticks_iff]

/-- No cursor takes more than 31 STEPs (R98). -/
theorem ticks_le (c : Word) : ticks c ≤ 31 :=
  Nat.le_of_not_lt fun h => absurd ((succ_lt_ticks_iff c 30).1 h) (Nat.not_lt.2 (log2_toNat_le c))

/-- One more STEP advances what the STEPs before it left. -/
theorem runCursor_succ (n : Nat) (c : Word) : runCursor (n + 1) c = advance (runCursor n c) := by
  induction n generalizing c with
  | zero => rfl
  | succ n ih => exact ih (advance c)

/-- After `n` STEPs the cursor is shifted by `n`, or idle once its ticks are over (R97). -/
theorem runCursor_eq (n : Nat) (c : Word) : runCursor n c = if n < ticks c then c >>> n else 0#32 := by
  induction n with
  | zero =>
    split
    · rfl
    · next h => exact Classical.byContradiction fun h0 => h ((lt_ticks_iff c 0).2 (.inl ⟨rfl, h0⟩))
  | succ n ih =>
    rw [runCursor_succ, ih]
    split
    · simp only [advance_ushiftRight, succ_lt_ticks_iff]
    · next h =>
      rw [if_neg (by omega)]
      exact advance_idle

theorem runCursor_of_lt_ticks {n : Nat} {c : Word} (h : n < ticks c) : runCursor n c = c >>> n := by
  rw [runCursor_eq, if_pos h]

theorem runCursor_of_ticks_le {n : Nat} {c : Word} (h : ticks c ≤ n) : runCursor n c = 0#32 := by
  rw [runCursor_eq, if_neg (Nat.not_lt.2 h)]

/-- The cursor is not idle exactly while ticks are left (R97). -/
theorem runCursor_ne_zero_iff (n : Nat) (c : Word) : runCursor n c ≠ 0#32 ↔ n < ticks c :=
  ⟨fun hne => Nat.lt_of_not_le fun h => hne (runCursor_of_ticks_le h),
    fun h => runCursor_of_lt_ticks h ▸ ushiftRight_ne_zero h⟩

/-- The flags of `n` STEPs, each bit 0 of the cursor it finds (R90). -/
theorem runFlags_eq_map (n : Nat) (c : Word) : runFlags n c = (List.range n).map fun j => emittedFlag (runCursor j c) := by
  induction n generalizing c with
  | zero => rfl
  | succ n ih =>
    rw [runFlags, ih, List.range_succ_eq_map, List.map_cons, List.map_map]
    rfl

/-- STEP number `j` returns bit `j` of the word, as long as ticks are left (R97). -/
theorem runFlags_of_le_ticks {n : Nat} {c : Word} (h : n ≤ ticks c) :
    runFlags n c = (List.range n).map fun j => c.getLsbD j := by
  rw [runFlags_eq_map]
  refine List.map_congr_left fun j hj => ?_
  rw [runCursor_of_lt_ticks ((List.mem_range.1 hj).trans_le h), emittedFlag, BitVec.getLsbD_ushiftRight, Nat.add_zero]

end Sys2Proof.Machine
end

section
/-! The stepper's operations (41_stepper.md R90-R96, R99, R100): what one STEP does to every cursor, what the loads and NOP
leave, and which of them leaves a bare sentinel. -/

namespace Sys2Proof.Machine

/- ---- Which word selects which operation (R61) ---- -/

section Opcodes

variable {cw : CommandWord}

theorem decodeCommand_of_nop (h : cmdField cw = 0b00#2) : decodeCommand cw = .nop := by simp [decodeCommand, h]

theorem decodeCommand_of_step (h : cmdField cw = 0b01#2) : decodeCommand cw = .step := by simp [decodeCommand, h]

theorem decodeCommand_of_load (h : cmdField cw = 0b10#2) : decodeCommand cw = .load (dataField cw) := by
  simp [decodeCommand, h]

theorem decodeCommand_of_loadc (h : cmdField cw = 0b11#2) : decodeCommand cw = .loadc (chField cw) := by
  simp [decodeCommand, h]

end Opcodes

/- ---- The cursor after one STEP ---- -/

/-- STEP lowers every cursor but 0 (R99). -/
theorem advance_lt {c : Word} (h : c ≠ 0#32) : advance c < c := by
  have hpos : c.toNat ≠ 0 := fun h0 => h (BitVec.eq_of_toNat_eq h0)
  rw [BitVec.lt_def, advance_toNat]
  split <;> omega

/-- The cutoff shows only at 2 and 3, where the shift leaves the sentinel (R100). -/
theorem advance_ne_ushiftRight_iff (c : Word) : advance c ≠ c >>> 1 ↔ c = 2#32 ∨ c = 3#32 := by
  rw [ne_eq, ← BitVec.toNat_inj, ← BitVec.toNat_inj, ← BitVec.toNat_inj, advance_toNat, ushiftRight_one_toNat]
  simp only [BitVec.toNat_ofNat]
  split <;> omega

/- ---- What each operation leaves in the cursor ---- -/

/-- With an admissible ROM, only LOAD of 1 brings a cursor to the bare sentinel (R92). -/
theorem exec_cursor_ne_one {i : Instr} {s t : State} (hrom : romAdmissible s.rom = true) (hc : s.cursor ≠ 1#32)
    (hload : i ≠ .load 1#32) (h : exec i s = .next t) : t.cursor ≠ 1#32 := by
  cases i with
  | nop | convert ch => cases h; exact hc
  | step => cases h; exact advance_ne_one s.cursor
  | load data => cases h; exact fun hdata : data = 1#32 => hload (congrArg Instr.load hdata)
  | loadc ch =>
    cases h
    have hcode := two_le_convert hrom ch
    exact fun hone : convert s.rom ch = 1#32 => by simp [hone] at hcode

/- ---- The obligations ---- -/

/-- Settles O8: the sentinel alone is bit 0 and below the cutoff, no well-formed code is 1, and neither is what an operation
other than LOAD of 1 leaves. -/
theorem onlyLoadOfOneMakesSentinelEmitted : Obligations.OnlyLoadOfOneMakesSentinelEmitted := by
  unfold Obligations.OnlyLoadOfOneMakesSentinelEmitted
  refine ⟨fun s hone => ⟨_, exec_step_eq s, by simp [hone], by simp [hone]⟩, fun rom hrom idx hentry => ?_,
    fun i s t hrom hc h hone => ?_⟩
  · have hcode := two_le_romRead hrom idx
    simp [hentry] at hcode
  · exact Classical.byContradiction fun hload => exec_cursor_ne_one hrom hc hload h hone

/-- Settles O9: from the cutoff on STEP shifts, and bit `i` of the shifted word is bit `i + 1`; above bit 31 there is
none. -/
theorem stepShiftIsLogical : Obligations.StepShiftIsLogical := by
  unfold Obligations.StepShiftIsLogical
  intro s hcutoff
  have hshift : advance s.cursor = s.cursor >>> 1 := advance_of_ge (by simpa [BitVec.le_def] using hcutoff)
  have hbit : ∀ i, (advance s.cursor).getLsbD i = s.cursor.getLsbD (i + 1) := fun i => by
    rw [hshift, BitVec.getLsbD_ushiftRight, Nat.add_comm]
  exact ⟨_, exec_step_eq s, (hbit 31).trans (BitVec.getLsbD_of_ge _ _ (Nat.le_refl 32)), fun i _ => hbit i⟩

/-- Settles O15: halving lowers every cursor but 0, and so does clearing it. -/
theorem stepNeverIncreasesCursor : Obligations.StepNeverIncreasesCursor := by
  unfold Obligations.StepNeverIncreasesCursor
  exact fun s => ⟨_, exec_step_eq s, advance_lt, fun h => by simp [h]⟩

/-- Settles O16: the cutoff answers 0, which the shift does too below 2, and from the cutoff on the two agree. -/
theorem cutoffDiffersFromShiftOnlyAtTwoAndThree : Obligations.CutoffDiffersFromShiftOnlyAtTwoAndThree := by
  unfold Obligations.CutoffDiffersFromShiftOnlyAtTwoAndThree
  intro s
  have hiff := advance_ne_ushiftRight_iff s.cursor
  refine ⟨_, exec_step_eq s, hiff, fun hne => ?_⟩
  rcases hiff.1 hne with h | h <;> rw [h] <;> decide

/-- Settles O6: STEP in every state by the equation of `exec`, and the corner cases by evaluating the advance and the flag on
the cursor of each row. -/
theorem stepEmitsBitAndAdvances : Obligations.StepEmitsBitAndAdvances := by
  unfold Obligations.StepEmitsBitAndAdvances
  refine ⟨fun cw => decodeCommand_of_step, fun s => ⟨_, exec_step_eq s, rfl, rfl, isIdle_iff _, fun cw hcw => ?flag⟩,
    fun row hrow s hs => ?row⟩
  case flag =>
    exact (perform_tick ((isTick_command_iff cw).2 (decodeCommand_of_step hcw)) s).1
  case row =>
    have hvalues : advance row.1 = row.2.2 ∧ emittedFlag row.1 = row.2.1 := by
      clear hs
      revert row
      simp only [List.forall_mem_cons, List.not_mem_nil, false_imp_iff, implies_true, and_true]
      and_intros <;> decide
    rw [exec_step_eq, hs, hvalues.1, hvalues.2]
    rfl

/-- Settles O10: LOAD writes the cursor alone, and the STEP after it finds the word loaded. -/
theorem loadWritesWholeWord : Obligations.LoadWritesWholeWord := by
  unfold Obligations.LoadWritesWholeWord
  refine ⟨fun cw => decodeCommand_of_load, fun data s => ⟨_, exec_load_eq s data, rfl, rfl, isIdle_iff _,
    _, exec_step_eq _, rfl, fun hone => ?_⟩⟩
  simp [hone, isIdle_iff]

/-- Settles O11: LOADC writes the code of its character, which the lemmas on CONVERT give for the corner cases. -/
theorem loadcLoadsPackedCode : Obligations.LoadcLoadsPackedCode := by
  unfold Obligations.LoadcLoadsPackedCode
  refine ⟨fun cw => decodeCommand_of_loadc, fun ch s => ⟨_, exec_loadc_eq s ch, rfl, rfl, fun hrom => ?idle,
    convert_of_not_inThreeRanges s.rom, fun hlo hhi => ?letterCase⟩, fun s hrom => ?letterE⟩
  case idle =>
    have hcode := two_le_convert hrom ch
    rw [State.idleO_eq_decide]
    exact decide_eq_false fun h0 : convert s.rom ch = 0#32 => by simp [h0] at hcode
  case letterCase =>
    exact ⟨_, exec_loadc_eq s _, convert_lowerCase s.rom hlo hhi⟩
  case letterE =>
    obtain ⟨hE, -⟩ := romRead_pinned hrom
    have hidx : romIndex 0x65#8 = 14 := by decide
    exact ⟨_, exec_loadc_eq s 0x65#8, (congrArg (romRead s.rom) hidx).trans hE⟩

/-- Settles O12: NOP answers its own state, and a NOP cycle is silent. -/
theorem nopChangesNothing : Obligations.NopChangesNothing := by
  unfold Obligations.NopChangesNothing
  refine ⟨fun cw => decodeCommand_of_nop, exec_nop_eq, fun s cw hcw => ?_⟩
  have hsilent : isSilent (.edge false cw) = true := (isSilent_command_iff cw).2 (decodeCommand_of_nop hcw)
  obtain ⟨ch, hp⟩ := perform_of_silent hsilent s
  exact ⟨_, hp, rfl, rfl, returned_of_not_tick (isTick_of_silent hsilent) s⟩

end Sys2Proof.Machine
end

section
/-! Invariants of the cursor that a host keeps by what it loads (41_stepper.md R92, 40_encoder.md R84, 30_encoding.md R69):
it never holds a bare sentinel, and it is idle or the rest of a ROM entry. -/

namespace Sys2Proof.Machine

/- ---- The rests of ROM entries ---- -/

/-- The cursor is idle or what is left of a ROM entry of which fewer ticks than it has were emitted (R84, R97): the clause of
`CursorIsRestOfEntry` on the cursor. -/
def IsRestOfEntry (rom : RomTable) (c : Word) : Prop :=
  c = 0#32 ∨ ∃ idx : Fin Config.romDepth, ∃ j < (romRead rom idx).toNat.log2, c = romRead rom idx >>> j

/-- An entry of which nothing was emitted. -/
theorem isRestOfEntry_convert {rom : RomTable} (h : romAdmissible rom = true) (ch : Char8) :
    IsRestOfEntry rom (convert rom ch) :=
  .inr ⟨romIndex ch, 0, (lt_log2_iff 0 _).2 (two_le_convert h ch), by rw [BitVec.ushiftRight_zero]; rfl⟩

/-- STEP emits one more tick of the entry, or its last (R97). -/
theorem isRestOfEntry_advance {rom : RomTable} {c : Word} (h : IsRestOfEntry rom c) : IsRestOfEntry rom (advance c) := by
  rcases h with rfl | ⟨idx, j, -, rfl⟩
  · exact .inl advance_idle
  · rw [advance_ushiftRight]
    split
    · next h => exact .inr ⟨idx, j + 1, h, rfl⟩
    · exact .inl rfl

/-- With an admissible ROM, only LOAD of another value than 0 brings a cursor away from the rests of entries (R69, R84). -/
theorem exec_isRestOfEntry {i : Instr} {s t : State} (hrom : romAdmissible s.rom = true)
    (hc : IsRestOfEntry s.rom s.cursor) (hload : ∀ data, i = .load data → data = 0#32) (h : exec i s = .next t) :
    IsRestOfEntry s.rom t.cursor := by
  cases i with
  | nop | convert ch => cases h; exact hc
  | step => cases h; exact isRestOfEntry_advance hc
  | load data => cases h; exact .inl (hload data rfl)
  | loadc ch => cases h; exact isRestOfEntry_convert hrom ch

/- ---- Invariants of the cursor ---- -/

/-- What a host keeps true of the cursor by sending only transactions that it allows itself, no loss of power among them: if
0 meets it and every command allowed keeps it, so does every step, and the ROM and the restriction on what is pending
stay. -/
theorem step_keeps_cursor {P : Word → Prop} {allowed : Transaction → Bool} {s t : State} (hidle : P 0#32)
    (hpower : allowed .powerCycle = false)
    (hcommand : ∀ cw u v, allowed (.edge false cw) = true → u.rom = s.rom → P u.cursor →
      exec (decodeCommand cw) u = .next v → P v.cursor)
    (hc : P s.cursor) (hpending : ∀ e ∈ s.pending, allowed e = true) (h : step s = .next t) :
    t.rom = s.rom ∧ P t.cursor ∧ ∀ e ∈ t.pending, allowed e = true := by
  rcases step_cases s with ⟨-, hstep⟩ | ⟨e, rest, hcons, hstep⟩
  · cases hstep.symm.trans h
    exact ⟨rfl, hc, hpending⟩
  · have hp : perform e (s.withPending rest) = .next t := hstep.symm.trans h
    obtain ⟨hrom, hrest, -⟩ := perform_frame hp
    rw [hcons, List.forall_mem_cons] at hpending
    obtain ⟨he, hallowed⟩ := hpending
    refine ⟨hrom, ?_, by rw [hrest]; exact hallowed⟩
    match e with
    | .edge true cw => cases hp; exact hidle
    | .edge false cw => exact hcommand cw ((s.withPending rest).driveCh (chField cw)) t he rfl hc hp
    | .query ch => cases hp; exact hc
    | .powerCycle => exact absurd he (by simp [hpower])

/-- A command of a host that sets the cursor only by LOADC, CLEAR or reset is no LOAD of another value than 0. -/
theorem data_eq_zero_of_loadsOnlyCharacters {cw : CommandWord} {data : Word}
    (h : loadsOnlyCharacters (.edge false cw) = true) (hload : decodeCommand cw = .load data) : data = 0#32 := by
  simpa [loadsOnlyCharacters, hload] using h

/- ---- The obligations ---- -/

/-- Settles O44: reset and the idle cursor are no bare sentinel, and of the commands only the one the host avoids makes
one. -/
theorem stepKeepsNoBareSentinel : Obligations.StepKeepsNoBareSentinel := by
  unfold Obligations.StepKeepsNoBareSentinel
  rintro s t ⟨hrom, hc, hpending⟩ h
  have hcommand : ∀ cw u v, loadsNoBareSentinel (.edge false cw) = true → u.rom = s.rom → u.cursor ≠ 1#32 →
      exec (decodeCommand cw) u = .next v → v.cursor ≠ 1#32 := fun cw u v hallowed hu hcu =>
    exec_cursor_ne_one (hu ▸ hrom) hcu (by simpa [loadsNoBareSentinel] using hallowed)
  obtain ⟨hromt, hkept⟩ := step_keeps_cursor (P := (· ≠ 1#32)) (by decide) rfl hcommand hc hpending h
  exact ⟨hromt ▸ hrom, hkept⟩

/-- Settles O45: a LOADC starts an entry, a STEP emits one more tick of it, and CLEAR, reset and the entry's last tick make
the cursor idle. -/
theorem stepKeepsCursorRestOfEntry : Obligations.StepKeepsCursorRestOfEntry := by
  unfold Obligations.StepKeepsCursorRestOfEntry
  rintro s t ⟨hrom, hc, hpending⟩ h
  have hcommand : ∀ cw u v, loadsOnlyCharacters (.edge false cw) = true → u.rom = s.rom →
      IsRestOfEntry s.rom u.cursor → exec (decodeCommand cw) u = .next v → IsRestOfEntry s.rom v.cursor := fun cw u v hallowed hu hcu =>
    hu ▸ exec_isRestOfEntry (hu ▸ hrom) (hu ▸ hcu) fun _ => data_eq_zero_of_loadsOnlyCharacters hallowed
  obtain ⟨hromt, hkept⟩ := step_keeps_cursor (.inl rfl) rfl hcommand hc hpending h
  unfold CursorIsRestOfEntry
  rw [hromt]
  exact ⟨hrom, hkept⟩

end Sys2Proof.Machine
end

section
/-! Playback (41_stepper.md R91, R97, R98): what a run of STEPs returns and leaves, by how many ticks the cursor has. -/

namespace Sys2Proof.Machine

/-- A run of STEPs no longer than the cursor's ticks returns that many of its bits, bit 0 first (R97). -/
theorem observe_ticks_of_le {es : List Transaction} {s : State} (hes : ∀ e ∈ es, isTick e = true)
    (hlen : es.length ≤ ticks s.cursor) :
    ∃ t, observe es s = .next (t, (List.range es.length).map fun j => s.cursor.getLsbD j) ∧
      t.cursor = runCursor es.length s.cursor ∧
      (es ≠ [] → t.outQ = s.cursor.getLsbD (es.length - 1)) := by
  obtain ⟨t, hrun, hcursor, hout, -⟩ := observe_ticks es s hes
  rw [runFlags_of_le_ticks hlen] at hrun hout
  refine ⟨t, hrun, hcursor, fun hne => ?_⟩
  rw [hout, List.getLast?_map, List.getLast?_range, if_neg (by simpa using hne)]
  rfl

/-- A run of STEPs leaves a cursor that is not idle exactly when it was shorter than the cursor's ticks (R97, R98). -/
theorem observe_ticks_idle_iff {es : List Transaction} (hes : ∀ e ∈ es, isTick e = true) (s : State) :
    ∃ t flags, observe es s = .next (t, flags) ∧ (t.cursor ≠ 0#32 ↔ es.length < ticks s.cursor) := by
  obtain ⟨t, hrun, hcursor, -⟩ := observe_ticks es s hes
  exact ⟨t, _, hrun, hcursor ▸ runCursor_ne_zero_iff _ _⟩

/-- More than 30 ticks are left exactly when bit 31 is set (R98). -/
theorem thirty_lt_ticks_iff (c : Word) : 30 < ticks c ↔ 0x80000000#32 ≤ c := by
  rw [succ_lt_ticks_iff, lt_log2_iff, BitVec.le_def]
  rfl

/- ---- The obligations ---- -/

/-- Settles O7, from the flags and the cursor of a run that starts idle. -/
theorem idleStepsEmitNothing : Obligations.IdleStepsEmitNothing := by
  unfold Obligations.IdleStepsEmitNothing
  intro es s hes hidle
  obtain ⟨t, hrun, hcursor, hout, -⟩ := observe_ticks es s hes
  rw [hidle, runFlags_idle] at hrun hout
  rw [hidle, runCursor_idle] at hcursor
  refine ⟨t, hrun, hcursor, fun hne => ?_⟩
  rw [hout, List.getLast?_replicate, if_neg (by simpa using hne)]
  rfl

/-- Settles O13: a cursor of at least 2 has as many ticks as bits below its highest one, so the run of all of them ends idle
and a shorter one does not; 1 has one tick, and 0 is idle. -/
theorem playbackLaw : Obligations.PlaybackLaw := by
  unfold Obligations.PlaybackLaw
  refine fun es s hes => ⟨fun hcode hlen => ?code, fun hone hlen => ?sentinel, fun hidle => ?idle⟩
  case code =>
    have hcode' : 2 ≤ s.cursor.toNat := by simpa [BitVec.le_def] using hcode
    have hticks : ticks s.cursor = s.cursor.toNat.log2 := ticks_eq_log2 hcode'
    have hpos : 0 < s.cursor.toNat.log2 := (lt_log2_iff 0 _).2 hcode'
    refine ⟨?all, fun j hj => ?part⟩
    case all =>
      obtain ⟨t, hrun, hcursor, hout⟩ := observe_ticks_of_le hes (hlen.trans hticks.symm).le
      rw [hlen] at hrun hcursor hout
      exact ⟨t, hrun, hcursor.trans (runCursor_of_ticks_le hticks.le),
        hout (List.length_pos_iff.1 (hlen ▸ hpos))⟩
    case part =>
      have hlenj : (es.take j).length = j := List.length_take_of_le (hlen ▸ hj.le)
      obtain ⟨t, hrun, hcursor, -⟩ := observe_ticks_of_le (es := es.take j) (s := s)
        (fun e he => hes e (List.mem_of_mem_take he)) (by rw [hlenj, hticks]; exact hj.le)
      rw [hlenj] at hrun hcursor
      rw [runCursor_of_lt_ticks (hticks ▸ hj)] at hcursor
      exact ⟨t, hrun, hcursor, hcursor ▸ ushiftRight_ne_zero (hticks ▸ hj)⟩
  case sentinel =>
    obtain ⟨t, hrun, hcursor, -⟩ := observe_ticks es s hes
    rw [hone, hlen] at hrun hcursor
    have hflags : runFlags 1 1#32 = [true] := by decide
    exact ⟨t, hflags ▸ hrun, hcursor.trans advance_sentinel⟩
  case idle =>
    obtain ⟨t, hrun, hcursor, -⟩ := idleStepsEmitNothing es s hes hidle
    exact ⟨t, hrun, hcursor⟩

/-- Settles O14: no cursor has more than 31 ticks, and more than 30 only with bit 31 set. -/
theorem thirtyOneStepsReachIdle : Obligations.ThirtyOneStepsReachIdle := by
  unfold Obligations.ThirtyOneStepsReachIdle
  refine fun es s hes => ⟨fun hlen => ?_, fun hlen => ?_, ?_⟩
  · obtain ⟨t, flags, hrun, hiff⟩ := observe_ticks_idle_iff hes s
    exact ⟨t, flags, hrun, Classical.byContradiction fun hne =>
      absurd (hiff.1 hne) (Nat.not_lt.2 (hlen ▸ ticks_le s.cursor))⟩
  · obtain ⟨t, flags, hrun, hiff⟩ := observe_ticks_idle_iff hes s
    exact ⟨t, flags, hrun, hiff.trans (hlen ▸ thirty_lt_ticks_iff s.cursor)⟩
  · rw [dataBits, List.length_map, List.length_range]
    exact log2_toNat_le s.cursor

end Sys2Proof.Machine
end

section
/-! Nothing stops the machine (60_exceptions.md R110): operations, transactions, steps and runs all answer a next state. -/

namespace Sys2Proof.Machine

/-- No operation faults and none is refused (R110). -/
theorem exec_next (i : Instr) (s : State) : ∃ t, exec i s = .next t := by
  cases i with
  | nop => exact ⟨_, exec_nop_eq s⟩
  | step => exact ⟨_, exec_step_eq s⟩
  | load data => exact ⟨_, exec_load_eq s data⟩
  | loadc ch => exact ⟨_, exec_loadc_eq s ch⟩
  | convert ch => exact ⟨_, exec_convert_eq s ch⟩

/-- A run of any length is never stopped: it goes on from the state each step answers (R110). -/
theorem run_next (n : Nat) (s : State) : ∃ t : State, Host.Core.run Sys2Proof.core n s = .next t := by
  induction n generalizing s with
  | zero => exact ⟨s, rfl⟩
  | succ n ih =>
    obtain ⟨s', hstep, -⟩ := step_next s
    rw [run_succ_of_step hstep n]
    exact ih s'

/-- Settles O32, from what one operation, one transaction, one step and one run answer. -/
theorem everyOperationAnswersNext : Obligations.EveryOperationAnswersNext := by
  unfold Obligations.EveryOperationAnswersNext
  refine ⟨exec_next, fun e s => ?_, fun s => ?_, run_next⟩
  · obtain ⟨t, h, -⟩ := perform_next e s
    exact ⟨t, h⟩
  · obtain ⟨t, h, -⟩ := step_next s
    exact ⟨t, h⟩

end Sys2Proof.Machine
end

section
/-! The host's side of the contract (70_reset_and_hazards.md R135-R137): what one issued instruction does, the contract taken
one interaction at a time, what a NOP and the level on `ch_i` leave alone, and what H4 lets a host do. -/

namespace Sys2Proof.Machine

/- ---- Runs of one transaction, and runs as functions of their start ---- -/

/-- A run of one transaction returns that transaction's flags. -/
theorem observe_singleton {e : Transaction} {s t : State} (h : perform e s = .next t) :
    observe [e] s = .next (t, returned e s) := by
  simpa using observe_cons h (observe_nil t)

/-- Issuing one instruction other than STEP returns no flag (R70). -/
theorem observe_issue_of_ne_step {i : Instr} {s t : State} (hi : i ≠ .step) (h : perform (issue i) s = .next t) :
    observe [issue i] s = .next (t, []) :=
  (observe_singleton h).trans (by rw [returned_issue_of_ne_step hi])

theorem observe_issue_load (data : Word) (s : State) :
    observe [issue (.load data)] s = .next ((s.driveCh 0x00#8).writeCursor data, []) :=
  observe_issue_of_ne_step (by simp) (perform_issue_load data s)

theorem observe_issue_loadc (ch : Char8) (s : State) :
    observe [issue (.loadc ch)] s = .next ((s.driveCh ch).writeCursor (convert s.rom ch), []) :=
  observe_issue_of_ne_step (by simp) (perform_issue_loadc ch s)

/-- Issuing NOP does nothing but put 0 on `ch_i` (R96). -/
theorem observe_issue_nop (s : State) : observe [issue .nop] s = .next (s.driveCh 0x00#8, []) := by
  have hp : perform (issue .nop) s = .next (s.driveCh 0x00#8) := by
    rw [perform_issue_of_command rfl, exec_nop_eq]
    rfl
  exact observe_issue_of_ne_step (by simp) hp

/-- Issuing STEP returns bit 0 of the cursor and advances it (R90). -/
theorem observe_issue_step (s : State) : ∃ t, observe [issue .step] s = .next (t, [emittedFlag s.cursor]) ∧
    t.cursor = advance s.cursor ∧ t.outQ = emittedFlag s.cursor ∧ t.rom = s.rom := by
  obtain ⟨hflag, t, hp, ht⟩ := perform_tick isTick_issue_step s
  exact ⟨t, hflag ▸ observe_singleton hp, ht⟩

/-- A run keeps the ROM (R43). -/
theorem observe_rom {es : List Transaction} {s t : State} {flags : List Bool} (h : observe es s = .next (t, flags)) :
    t.rom = s.rom := by
  obtain ⟨u, _, hu, hrom⟩ := observe_next es s
  cases h.symm.trans hu
  exact hrom

/-- The level that stands on `ch_i` before a run shows nowhere but on `ch_i` after it (R60). -/
theorem observe_driveCh (es : List Transaction) (s : State) (ch : Char8) :
    ∃ t flags ch', observe es s = .next (t, flags) ∧ observe es (s.driveCh ch) = .next (t.driveCh ch', flags) := by
  induction es generalizing s ch with
  | nil => exact ⟨s, [], ch, rfl, rfl⟩
  | cons e es ih =>
    obtain ⟨s', hp, -⟩ := perform_next e s
    obtain ⟨c, hp'⟩ := perform_driveCh hp ch
    obtain ⟨t, flags, ch', ho, ho'⟩ := ih s' c
    exact ⟨t, _, ch', observe_cons hp ho, observe_cons hp' ho'⟩

/-- `idle_o` reads 0 exactly while the cursor is not 0 (R23). -/
theorem State.idleO_eq_false_iff (s : State) : s.idleO = false ↔ s.cursor ≠ 0#32 := by
  rw [State.idleO_eq_decide, decide_eq_false_iff_not]

/-- A STEP reaches idle exactly from below the cutoff (R90). -/
theorem advance_eq_zero_iff (c : Word) : advance c = 0#32 ↔ c < 4#32 := by
  rw [← BitVec.toNat_inj, advance_toNat, BitVec.lt_def]
  simp only [BitVec.toNat_ofNat]
  split <;> omega

/-- With an admissible ROM no character's code is idle (R45). -/
theorem convert_ne_zero {rom : RomTable} (h : romAdmissible rom = true) (ch : Char8) : convert rom ch ≠ 0#32 := by
  have hcode := two_le_convert h ch
  exact fun h0 => by simp [h0] at hcode

/- ---- The contract, one interaction at a time ---- -/

section Contract

variable {h : Standing} {i : Interaction} {more : List Interaction} {s t : State} {flags : List Bool}

/-- A host keeps the contract when its first interaction meets its row's conditions and it keeps the contract from where
that leaves both (R135). -/
theorem keepsContract_cons_iff (ho : observe (i.sends s.rom) s = .next (t, flags)) :
    keepsContract h (i :: more) s ↔ i.allowed h s = true ∧ keepsContract (i.leaves h) more t := by
  refine and_congr_right fun _ => ⟨fun hmore => hmore t flags ho, fun hmore u _ hu => ?_⟩
  cases ho.symm.trans hu
  exact hmore

/-- The contract does not speak of the level on `ch_i` (R135). -/
theorem keepsContract_driveCh (h : Standing) (doing : List Interaction) (s : State) (ch : Char8) :
    keepsContract h doing (s.driveCh ch) ↔ keepsContract h doing s := by
  induction doing generalizing h s ch with
  | nil => exact Iff.rfl
  | cons i more ih =>
    obtain ⟨t, flags, ch', ho, ho'⟩ := observe_driveCh (i.sends s.rom) s ch
    have hallowed : i.allowed h (s.driveCh ch) = i.allowed h s := rfl
    rw [keepsContract_cons_iff (s := s.driveCh ch) ho', keepsContract_cons_iff ho, hallowed, ih]

/-- A NOP may be left out or put in (H7). -/
theorem keepsContract_idleCycle_cons : keepsContract h (.idleCycle :: more) s ↔ keepsContract h more s := by
  rw [keepsContract_cons_iff (i := .idleCycle) (observe_issue_nop s), leaves_idleCycle, keepsContract_driveCh]
  exact and_iff_right rfl

/-- A test sends nothing: it must read `idle_o` as it is, and lifts the duty to test (H4). -/
theorem keepsContract_testIdle_cons {reading : Bool} : keepsContract h (.testIdle reading :: more) s ↔
    s.idleO = reading ∧ keepsContract { h with owesTest := false } more s := by
  rw [keepsContract_cons_iff (i := .testIdle reading) (observe_nil s), leaves_testIdle, Interaction.allowed, beq_iff_eq]

/-- A first interaction meets its row's conditions. -/
theorem allowed_of_keepsContract (hk : keepsContract h (i :: more) s) : i.allowed h s = true := hk.1

end Contract

/-- What H4 lets a host do that owes the test: make it, start over, or give up a character not over yet by a command of
H6. -/
def Interaction.paysTest (idle : Bool) (i : Interaction) : Prop :=
  i = .testIdle idle ∨ i = .reset ∨ i = .clear ∨
    idle = false ∧ (i = .abandonByClear ∨ (∃ data, i = .abandonByLoad data) ∨ ∃ ch, i = .abandonByLoadc ch)

/-- While the test is owed, the table allows NOPs and what H4 lets the host do (R135). -/
theorem paysTest_of_allowed {h : Standing} {i : Interaction} {s : State} (howes : h.owesTest = true)
    (hallowed : i.allowed h s = true) : i = .idleCycle ∨ i.paysTest s.idleO := by
  cases i with
  | idleCycle => exact .inl rfl
  | reset => exact .inr (.inr (.inl rfl))
  | clear => exact .inr (.inr (.inr (.inl rfl)))
  | testIdle reading =>
    rw [Interaction.allowed, beq_iff_eq] at hallowed
    exact .inr (.inl (congrArg _ hallowed.symm))
  | character _ _ | gap | tick | idleStep => simp [Interaction.allowed, howes] at hallowed
  | abandonByClear =>
    rw [Interaction.allowed, Bool.not_eq_true'] at hallowed
    exact .inr (.inr (.inr (.inr ⟨hallowed, .inl rfl⟩)))
  | abandonByLoad data =>
    rw [Interaction.allowed, Bool.and_eq_true, Bool.not_eq_true'] at hallowed
    exact .inr (.inr (.inr (.inr ⟨hallowed.2, .inr (.inl ⟨data, rfl⟩)⟩)))
  | abandonByLoadc ch =>
    rw [Interaction.allowed, Bool.and_eq_true, Bool.not_eq_true'] at hallowed
    exact .inr (.inr (.inr (.inr ⟨hallowed.2, .inr (.inr ⟨ch, rfl⟩)⟩)))

/-- A host that owes the test sends NOPs until it does what H4 lets it do, and does so before its list ends (H4, H7). -/
theorem exists_paysTest_of_keepsContract {h : Standing} {doing : List Interaction} {s : State} (howes : h.owesTest = true)
    (hk : keepsContract h doing s) : ∃ (n : Nat) (i : Interaction) (more : List Interaction),
      doing = List.replicate n .idleCycle ++ i :: more ∧ i.paysTest s.idleO := by
  induction doing with
  | nil =>
    have hpaid : h.owesTest = false := hk
    exact absurd (howes.symm.trans hpaid) (by simp)
  | cons i more ih =>
    rcases paysTest_of_allowed howes (allowed_of_keepsContract hk) with rfl | hpays
    · obtain ⟨n, j, rest, rfl, hpays⟩ := ih (keepsContract_idleCycle_cons.1 hk)
      exact ⟨n + 1, j, rest, rfl, hpays⟩
    · exact ⟨0, i, more, rfl, hpays⟩

/- ---- The obligations ---- -/

/-- Settles O52, by induction on the interactions: a NOP may be left out, and any other one leads both lists to the same
state and standing. -/
theorem idleCyclesBreakNoDuty : Obligations.IdleCyclesBreakNoDuty := by
  unfold Obligations.IdleCyclesBreakNoDuty
  intro h doing s
  induction doing generalizing h s with
  | nil => exact Iff.rfl
  | cons i more ih =>
    by_cases hi : i = .idleCycle
    · rw [hi, keepsContract_idleCycle_cons, List.filter_cons_of_neg (by simp)]
      exact ih h s
    · obtain ⟨t, flags, ho, -⟩ := observe_next (i.sends s.rom) s
      rw [List.filter_cons_of_pos (by simpa using hi), keepsContract_cons_iff ho, keepsContract_cons_iff ho, ih]

/-- Settles O53: a tick leaves the host owing the test, and a host that owes it does what `Interaction.paysTest` says. -/
theorem tickIsTestedOrCharacterGivenUp : Obligations.TickIsTestedOrCharacterGivenUp := by
  unfold Obligations.TickIsTestedOrCharacterGivenUp
  refine ⟨fun h doing s hk => ?_, fun h doing s howes hk => exists_paysTest_of_keepsContract howes hk⟩
  obtain ⟨t, ho, -⟩ := observe_issue_step s
  obtain ⟨-, hmore⟩ := (keepsContract_cons_iff (i := .tick) ho).1 hk
  exact ⟨t, ho, exists_paysTest_of_keepsContract (leaves_tick_owesTest h) hmore⟩

end Sys2Proof.Machine
end

section
/-! A session of the calling loop, and what the rows of the contract give back (70_reset_and_hazards.md R135): what a started
host plays from idle, and that playing one thing after another plays both. -/

namespace Sys2Proof.Machine

/- ---- Keeping the contract over two lists ---- -/

/-- No interaction undoes the start of H1. -/
theorem leaves_started {h : Standing} (hstarted : h.started = true) (i : Interaction) : (i.leaves h).started = true := by
  cases i with
  | reset | clear | abandonByClear => rfl
  | character _ _ | tick | testIdle _ | gap | abandonByLoad _ | abandonByLoadc _ | idleCycle | idleStep => exact hstarted

/-- A started host that kept the contract to the end of a list stands clean there, so it may go on with any list that it
keeps the contract with from clean (R135). -/
theorem keepsContract_append {h : Standing} {a b : List Interaction} {s t : State} {flags : List Bool}
    (hstarted : h.started = true) (ha : keepsContract h a s) (ho : observe (transactionsOf s.rom a) s = .next (t, flags))
    (hb : keepsContract .clean b t) : keepsContract h (a ++ b) s := by
  induction a generalizing h s flags with
  | nil =>
    cases ho
    have hclean : h = .clean := by
      cases h
      cases hstarted
      exact congrArg (Standing.mk true) ha
    rwa [hclean]
  | cons i more ih =>
    obtain ⟨s', x, hi, hrom⟩ := observe_next (i.sends s.rom) s
    obtain ⟨t', y, hmore, -⟩ := observe_next (transactionsOf s'.rom more) s'
    have hboth := observe_append hi (hrom ▸ hmore)
    cases hboth.symm.trans ho
    obtain ⟨hallowed, hrest⟩ := (keepsContract_cons_iff hi).1 ha
    exact (keepsContract_cons_iff hi).2 ⟨hallowed, ih (leaves_started hstarted i) hrest hmore⟩

/- ---- The ticks of a character, tested ---- -/

/-- The cursor is idle exactly when it has no ticks (R97). -/
theorem ticks_eq_zero_iff (c : Word) : ticks c = 0 ↔ c = 0#32 := by
  have hpos : c ≠ 0#32 ↔ 0 < ticks c := runCursor_ne_zero_iff 0 c
  rw [← not_iff_not, ← ne_eq, ← ne_eq, hpos, Nat.pos_iff_ne_zero]

/-- A STEP takes one tick off the cursor (R97). -/
theorem ticks_advance (c : Word) : ticks (advance c) = ticks c - 1 := by
  have hlt : ∀ n, n < ticks (advance c) ↔ n + 1 < ticks c := fun n =>
    (runCursor_ne_zero_iff n (advance c)).symm.trans (runCursor_ne_zero_iff (n + 1) c)
  have := hlt (ticks (advance c))
  have := hlt (ticks c - 1)
  omega

/-- Playing all the ticks of the cursor, `idle_o` tested after each and read as 1 after the last alone, keeps the contract
(H3, H4). -/
theorem keepsContract_testedTicks {n : Nat} {s : State} (hn : ticks s.cursor = n) :
    keepsContract .clean (testedTicks n) s := by
  induction n generalizing s with
  | zero => rfl
  | succ n ih =>
    obtain ⟨t, ho, hcursor, -⟩ := observe_issue_step s
    have hticks : ticks t.cursor = n := by rw [hcursor, ticks_advance, hn, Nat.add_sub_cancel]
    have hbusy : s.idleO = false := (State.idleO_eq_false_iff s).2 fun h0 => by
      rw [(ticks_eq_zero_iff _).2 h0] at hn
      omega
    have hreading : t.idleO = (n == 0) := by
      rw [Bool.eq_iff_iff, State.idleO_eq, isIdle_iff, ← ticks_eq_zero_iff, hticks, beq_iff_eq]
    refine (keepsContract_cons_iff (i := .tick) ho).2 ⟨?_, keepsContract_testIdle_cons.2 ⟨hreading, ih hticks⟩⟩
    rw [Interaction.allowed, hbusy]
    rfl

/- ---- What a started host plays from idle ---- -/

/-- In every idle state with this ROM, a host that has started and owes no test may do these things under the contract;
they return these flags and end idle. -/
def Plays (rom : RomTable) (doing : List Interaction) (bits : List Bool) : Prop :=
  ∀ s : State, s.rom = rom → s.idleO = true →
    ∃ t, observe (transactionsOf rom doing) s = .next (t, bits) ∧ t.idleO = true ∧ keepsContract .clean doing s

section Playing

variable {rom : RomTable}

theorem plays_nil (rom : RomTable) : Plays rom [] [] := fun s _ hidle => ⟨s, rfl, hidle, rfl⟩

/-- What is played after something played returns its flags after the other's. -/
theorem Plays.append {a b : List Interaction} {x y : List Bool} (ha : Plays rom a x) (hb : Plays rom b y) :
    Plays rom (a ++ b) (x ++ y) := by
  rintro s rfl hidle
  obtain ⟨t, ho, hidlet, hkeeps⟩ := ha s rfl hidle
  obtain ⟨u, ho', hidleu, hkeeps'⟩ := hb t (observe_rom ho) hidlet
  refine ⟨u, ?_, hidleu, keepsContract_append rfl hkeeps ho hkeeps'⟩
  rw [transactionsOf_append]
  exact observe_append ho ho'

/-- A character plays its data bits (H2 to H4, R84). -/
theorem plays_playCharacter (hrom : romAdmissible rom = true) (ch : Char8) :
    Plays rom (playCharacter rom ch) (dataBits (convert rom ch)) := by
  rintro s rfl hidle
  obtain ⟨t, ho, hidlet⟩ := observe_sendCommands ch s hrom
  rw [← transactionsOf_playCharacter] at ho
  refine ⟨t, ho, hidlet, (keepsContract_cons_iff (i := .character ch false) (observe_issue_loadc ch s)).2
    ⟨?_, keepsContract_testedTicks rfl⟩⟩
  rw [Interaction.allowed, hidle]
  rfl

/-- The gap is allowed, sends and owes what the character ' ' does, and plays three off ticks (H5, R47). -/
theorem plays_playGap (hrom : romAdmissible rom = true) : Plays rom playGap [false, false, false] := by
  have hspace := plays_playCharacter hrom 0x20#8
  have hticks : ticks 0x00000008#32 = 3 := by decide
  have hbits : dataBits 0x00000008#32 = [false, false, false] := by decide
  rw [playCharacter, convert_space hrom, hticks, hbits] at hspace
  exact hspace

/-- A message plays its characters' data bits with three off ticks between two of them (H2 to H5). -/
theorem plays_playMessage (hrom : romAdmissible rom = true) (message : List Char8) :
    Plays rom (playMessage rom message) (messageBits rom message) := by
  induction message with
  | nil => exact plays_nil rom
  | cons ch more ih =>
    cases more with
    | nil => exact plays_playCharacter hrom ch
    | cons next rest => exact ((plays_playCharacter hrom ch).append (plays_playGap hrom)).append ih

end Playing

/- ---- The obligations ---- -/

/-- Settles O47: the reset edge makes any state idle and the host a started one, and from there the message plays. -/
theorem sessionEmitsTheMessage : Obligations.SessionEmitsTheMessage := by
  unfold Obligations.SessionEmitsTheMessage
  intro message s hrom
  have hreset := observe_singleton (perform_reset_eq s 0)
  obtain ⟨t, ho, hidle, hkeeps⟩ :=
    plays_playMessage hrom message (resetEdge (s.driveCh (chField 0))) rfl ((isIdle_iff _).2 rfl)
  exact ⟨t, observe_append hreset ho, hidle, (keepsContract_cons_iff (i := .reset) hreset).2 ⟨rfl, hkeeps⟩⟩

/-- Settles O51, row by row from what the transaction sent does; the gap's row from what the gap plays. -/
theorem contractRowsGiveBack : Obligations.ContractRowsGiveBack := by
  unfold Obligations.ContractRowsGiveBack
  intro s hrom
  refine ⟨fun i hi => ?start, fun ch raw _ => ?character, fun _ => ?tick, fun hidle => ?gap,
    fun data _ => ⟨_, observe_issue_load data s, rfl, rfl⟩, fun ch _ => ⟨_, observe_issue_loadc ch s, rfl, rfl⟩,
    ⟨_, observe_issue_nop s, rfl, rfl⟩, fun hidle => ?idleStep⟩
  case start =>
    rcases hi with rfl | rfl | rfl
    · exact ⟨_, observe_singleton (perform_reset_eq s 0), (isIdle_iff _).2 rfl⟩
    · exact ⟨_, observe_issue_load 0#32 s, (isIdle_iff _).2 rfl⟩
    · exact ⟨_, observe_issue_load 0#32 s, (isIdle_iff _).2 rfl⟩
  case character =>
    have hcode := convert_ne_zero hrom ch
    cases raw with
    | true => exact ⟨_, observe_issue_load (convert s.rom ch) s, (State.idleO_eq_false_iff _).2 hcode, rfl, rfl⟩
    | false => exact ⟨_, observe_issue_loadc ch s, (State.idleO_eq_false_iff _).2 hcode, rfl, rfl⟩
  case tick =>
    obtain ⟨t, ho, hcursor, hout, -⟩ := observe_issue_step s
    refine ⟨t, ho, hout, ?_⟩
    rw [State.idleO_eq, isIdle_iff, hcursor, advance_eq_zero_iff]
  case gap =>
    obtain ⟨t, ho, hidlet, -⟩ := plays_playGap hrom s rfl hidle
    exact ⟨t, ho, hidlet⟩
  case idleStep =>
    have hzero : s.cursor = 0#32 := (isIdle_iff _).1 hidle
    obtain ⟨t, ho, hcursor, hout, -⟩ := observe_issue_step s
    rw [hzero] at ho hcursor hout
    exact ⟨t, ho, hcursor.trans (advance_idle.trans hzero.symm), hout⟩

end Sys2Proof.Machine
end

section
/-! Reset, the return of power, and loading over a character being played (70_reset_and_hazards.md R130-R136). -/

namespace Sys2Proof.Machine

/-- The level that stands on `ch_i` before an operation shows nowhere but on `ch_i` after it (R60). -/
theorem exec_driveCh {i : Instr} {s t : State} (h : exec i s = .next t) (ch : Char8) :
    ∃ ch', exec i (s.driveCh ch) = .next (t.driveCh ch') := by
  cases i with
  | nop | step | load _ => cases h; exact ⟨ch, rfl⟩
  | loadc c | convert c => cases h; exact ⟨c, rfl⟩

/-- Settles O2: with `rst` high the step is the reset edge; with `rst` low it is the decoded operation, which neither the
level on `ch_i` nor what is pending touches. -/
theorem resetWinsOverEveryCommand : Obligations.ResetWinsOverEveryCommand := by
  unfold Obligations.ResetWinsOverEveryCommand
  refine fun s cw rest => ⟨fun hpending => ?high, fun hpending => ?low⟩
  case high =>
    exact ⟨_, (step_of_pending hpending).trans (perform_reset_eq _ cw), rfl, rfl, (isIdle_iff _).2 rfl, rfl⟩
  case low =>
    obtain ⟨u, hu⟩ := exec_next (decodeCommand cw) s
    obtain ⟨ch, hdriven⟩ := exec_driveCh hu (chField cw)
    have hp : perform (.edge false cw) s = .next (u.driveCh ch) := (perform_command_eq s cw).trans hdriven
    exact ⟨_, u, (step_of_pending hpending).trans (perform_withPending hp rest), hu, rfl, rfl⟩

/-- Settles O3, from the equations of a reset edge and of a query. -/
theorem resetLeavesRomAndCodeOutput : Obligations.ResetLeavesRomAndCodeOutput := by
  unfold Obligations.ResetLeavesRomAndCodeOutput
  intro s cw
  have hreset := perform_reset_eq s cw
  exact ⟨_, hreset, rfl, codeO_of_perform_edge hreset, fun rom => ⟨_, perform_reset_eq _ cw, rfl, rfl, rfl⟩,
    fun ch => ⟨_, perform_query_eq _ ch, rfl, rfl, rfl⟩⟩

@[simp] theorem emittedFlag_idle : emittedFlag 0#32 = false := by decide

/-- A STEP on the state after a reset edge writes to both registers what they hold (R130, R133). -/
theorem exec_step_resetEdge (s : State) : exec .step (resetEdge s) = .next (resetEdge s) := by
  rw [exec_step_eq, resetEdge_cursor, advance_idle]
  rfl

/-- Settles O4: the cursor a reset edge leaves is idle, which STEP keeps and answers with 0. -/
theorem stepAfterResetChangesNothing : Obligations.StepAfterResetChangesNothing := by
  unfold Obligations.StepAfterResetChangesNothing
  refine fun s cw => ⟨_, perform_reset_eq s cw, exec_step_resetEdge _, fun e he => ?_⟩
  obtain ⟨hflag, -⟩ := perform_tick he (resetEdge (s.driveCh (chField cw)))
  exact hflag.trans (by rw [resetEdge_cursor, emittedFlag_idle])

/-- Settles O5, from the equations of the operations on the state after power returned. -/
theorem powerLossIsRecoveredByResetOrLoad : Obligations.PowerLossIsRecoveredByResetOrLoad := by
  unfold Obligations.PowerLossIsRecoveredByResetOrLoad
  exact fun s => ⟨_, perform_powerCycle_eq s, rfl, rfl, rfl, fun cw => ⟨_, perform_reset_eq _ cw, rfl, rfl⟩,
    fun data => ⟨_, exec_load_eq _ data, rfl, rfl, _, exec_step_eq _, rfl⟩,
    fun ch => ⟨_, exec_loadc_eq _ ch, rfl, rfl, _, exec_step_eq _, rfl⟩⟩

/-- Settles O41: a load writes the whole cursor, so what was left in it is gone. -/
theorem loadDiscardsTheRestOfACharacter : Obligations.LoadDiscardsTheRestOfACharacter := by
  unfold Obligations.LoadDiscardsTheRestOfACharacter
  exact fun s other _ => ⟨fun data => ⟨_, exec_load_eq s data, rfl, rfl, exec_load_eq (s.writeCursor other) data⟩,
    fun ch => ⟨_, exec_loadc_eq s ch, rfl, rfl, exec_loadc_eq (s.writeCursor other) ch⟩⟩

end Sys2Proof.Machine
end

section
/-! The idle bus (30_encoding.md section 2, 60_exceptions.md section 7; log 3). -/

namespace Sys2Proof.Machine

/-- Settles O34: with nothing pending a step is an idle cycle, for any registers, output flag and ROM. -/
theorem idleBusHoldsTheState : Obligations.IdleBusHoldsTheState := by
  unfold Obligations.IdleBusHoldsTheState
  exact fun _ hidle => step_of_idle hidle

end Sys2Proof.Machine
end
